-- ==== Sys2Proof/Word.lean ====
section
/-! DEFINITION. The one bit-vector type of the data path, and how the other quantities are held.
Spec: 00_scope.md R10, 10_state.md R30, 30_encoding.md R60.

A channel word (`PEV`, `RXB`, `LINECODE`) is held as the natural number whose binary digits are its bits, bit 0
least significant (R10): its width depends on the parameter `DUR_W` (R60), so the decoder checks the width and the
type does not carry it (log 14). Durations and counters are unsigned integers (R10). A peer address is an opaque
token which the core only copies (R30), held as the number of its `PEER_W` bits. -/

namespace Sys2Proof

/-- One byte of a payload, of a frame or of the accumulator. -/
abbrev Byte := BitVec 8

end Sys2Proof
end

