-- ==== Sys2Proof/Config.lean ====
section
/-! DEFINITION. The parameters of the core (00_scope.md R7, 10_state.md R31) and its one free value,
the draw of 43_bridge.md R120. -/

namespace Sys2Proof

/-- The order in which one poll iteration attempts its two directions (R120). -/
inductive Order where
  | netFirst
  | linkFirst
deriving DecidableEq, Repr, Inhabited

/-- The parameter record of R7. Every field is static (R31): no operation writes one. -/
structure Config where
  /-- `DUR_W`: width in bits of a pulse duration, 1..32. -/
  durW : Nat := 16
  /-- `SHORT_MIN`: lower bound of the short window, inclusive. -/
  shortMin : Nat := 7
  /-- `SHORT_MAX`: upper bound of the short window, inclusive. -/
  shortMax : Nat := 13
  /-- `LONG_MIN`: lower bound of the long window, inclusive. -/
  longMin : Nat := 17
  /-- `LONG_MAX`: upper bound of the long window, inclusive. -/
  longMax : Nat := 23
  /-- `TX_SHORT`: duration of every half-bit pulse the encoder emits. -/
  txShort : Nat := 10
  /-- `MAX_PAYLOAD`: maximum network payload length in bytes. -/
  maxPayload : Nat := 1024
  /-- `FRAME_MAX`: capacity in bytes of the frame buffer; its default is `MAX_PAYLOAD`. -/
  frameMax : Nat := maxPayload
  /-- `PEER_W`: width in bits of a peer token. The spec leaves it OPEN; DESIGN CHOICE 64 (log 2). -/
  peerW : Nat := 64
  /-- `PREVIEW_LEN`: number of payload bytes copied into a log record. -/
  previewLen : Nat := 0
  /-- `TICK_NS`: length of one tick in nanoseconds, above 0. Informative: no rule of the core reads it. -/
  tickNs : Rat := 50
  /-- `IDLE_TICKS`: OPEN, informative (log 2). -/
  idleTicks : Option Nat := none
  /-- `NOISE_MIN_TICKS`: OPEN, informative (log 2). -/
  noiseMinTicks : Option Nat := none
  /-- `RXQ_CAP`: OPEN, informative (log 2). -/
  rxqCap : Option Nat := none
deriving DecidableEq, Repr

/-- The reference configuration: every default of R7. -/
def Config.reference : Config := {}

/-- The draw `ord` of R120 for a tick whose order no stimulus entry gives, as a FREE VALUE: applied to a
counter that advances at each such tick, so that it is drawn anew every iteration (R120, D16; log 6). -/
opaque Config.freeOrder : Nat → Order

end Sys2Proof
end

