-- ==== Sys2Proof/Syntax.lean ====
section
/-! DEFINITION. The records of 30_encoding.md R61 to R72, the operations of the map R73 (one constructor
of `Instr` for each row of the opcode table), and the selectors that select them. -/

namespace Sys2Proof

/-- A PulseEvent (R61): the logic level sustained for `duration` ticks, an unsigned tick count. -/
structure PulseEvent where
  level : Bool
  duration : Nat
deriving DecidableEq, Repr

/-- `NETIN` (R70): sender token and payload. -/
structure NetMessage where
  sender : Nat
  payload : List Byte
deriving DecidableEq, Repr

/-- `FRAMEREC` (R72): what the frame-boundary detector hands to the bridge at the end of a batch. -/
structure FrameRecord where
  bytes : List Byte
  residualBits : Nat
  truncated : Bool
deriving DecidableEq, Repr

/-- The `direction` field of a log record (R68). -/
inductive Direction where
  | netToLink
  | linkToNet
deriving DecidableEq, Repr

/-- The `outcome` field of a log record (R69). -/
inductive LogOutcome where
  | forwarded
  | droppedNoPeer
  | rejectedOversize
  | forwardedTruncated
deriving DecidableEq, Repr

/-- `LOGREC` (R68). -/
structure LogRecord where
  direction : Direction
  outcome : LogOutcome
  byteCount : Nat
  preview : List Byte
deriving DecidableEq, Repr

/-- A message on one of the three output channels (20_memory.md R47). -/
inductive Output where
  /-- `LINK_TX`: a sequence of `PEV` words in transmission order (R61). -/
  | linkTx (words : List Nat)
  /-- `NET_OUT` (R71). -/
  | netOut (addr : Nat) (payload : List Byte)
  /-- `LOG_OUT` (R68). -/
  | logOut (record : LogRecord)
deriving DecidableEq, Repr

/-- The core's operations (R73), one constructor per row of the opcode table. -/
inductive Instr where
  | reset
  | poll (ord : Order)
  | netRx (m : NetMessage)
  | netRxEmpty (sender : Nat)
  | netRxOversize (m : NetMessage)
  | encode (bytes : List Byte)
  | encBit1
  | encBit0
  | linkRx (events : List PulseEvent)
  | evShort (level : Bool) (duration : Nat)
  | evLong (level : Bool) (duration : Nat)
  | evNoise (level : Bool) (duration : Nat)
  | evEob (reserved : Nat)
  | halfBit (level : Bool)
  | byteFlush
  | frameFwd (fr : FrameRecord)
  | frameFwdTrunc (fr : FrameRecord)
  | frameDrop (fr : FrameRecord)
  | frameSkip (fr : FrameRecord)
deriving DecidableEq, Repr

/-- What selects an operation (R73, column "selected by"): the operation map's input. -/
inductive Selector where
  /-- The reset input asserted. -/
  | resetInput
  /-- One scheduler tick, with the order the environment draws for it (R120, 60_exceptions.md R158). -/
  | tick (ord : Order)
  /-- A `NETIN` message. -/
  | netMessage (m : NetMessage)
  /-- The payload of an accepted `NETIN` message, at the encoder. -/
  | payload (bytes : List Byte)
  /-- A `LINECODE` word: one data bit (R60). -/
  | dataBit (w : Nat)
  /-- A whole batch on `LINK_RX`: its `RXB` words (R62). -/
  | batch (words : List Nat)
  /-- One `RXB` word (R62). -/
  | beat (w : Nat)
  /-- One half-bit window at a level. -/
  | window (level : Bool)
  /-- `acc_bits` has reached 8. -/
  | accumulatorFull
  /-- A frame record, with the `peer_valid` it is met with. -/
  | frame (peerValid : Bool) (fr : FrameRecord)
deriving DecidableEq, Repr

end Sys2Proof
end

