-- ==== Sys2Proof/Machine/Operands.lean ====
section
/-! DEFINITION. Pure functions of operands and configuration: the legality of a configuration
(00_scope.md R7, R8), field extraction (30_encoding.md R63), the classifier (41_decoder.md R90), the
line-code table and the encoder (40_encoder.md R80 to R85), the words of the channels (R61, R62), the
preview and the codes of a log record (43_bridge.md R132, 30_encoding.md R69), and the half-bit windows a
batch stands for (41_decoder.md R101). -/

namespace Sys2Proof.Machine

/-! ### Configuration -/

/-- `cfg_ok`, the six lines of R8. -/
def cfgOk (c : Config) : Bool :=
  decide (c.shortMin ≤ c.shortMax) && decide (c.longMin ≤ c.longMax) && decide (c.shortMax < c.longMin)
    && (decide (c.shortMin ≤ c.txShort) && decide (c.txShort ≤ c.shortMax))
    && decide (c.longMax ≤ 2 ^ c.durW - 1)
    && (decide (1 ≤ c.frameMax) && decide (1 ≤ c.maxPayload))

/-- The ranges R7's table gives for the two widths and for the length of a tick, which `cfg_ok` does not repeat
(log 16). -/
def cfgInRange (c : Config) : Bool :=
  decide (1 ≤ c.durW) && decide (c.durW ≤ 32) && decide (1 ≤ c.peerW) && decide (0 < c.tickNs)

/-- A configuration the model gives a meaning to: R7's ranges and R8's check. -/
def cfgLegal (c : Config) : Bool := cfgInRange c && cfgOk c

/-! ### Fields of words -/

/-- `w[lo+n-1 : lo]`, zero-extended (R10). -/
def fieldOf (w : Nat) (lo n : Nat) : Nat := w / 2 ^ lo % 2 ^ n

/-- `duration = zext_32(w[DUR_W-1:0])` (R63). -/
def durationOf (c : Config) (w : Nat) : Nat := fieldOf w 0 c.durW

/-- `level = w[DUR_W]` (R63). -/
def levelOf (c : Config) (w : Nat) : Bool := fieldOf w c.durW 1 == 1

/-- `eob = w[DUR_W+1]` (R63). -/
def eobOf (c : Config) (w : Nat) : Bool := fieldOf w (c.durW + 1) 1 == 1

/-- The reserved bits `w[DUR_W:0]` of an end-of-batch beat (R74). -/
def reservedOf (c : Config) (w : Nat) : Nat := fieldOf w 0 (c.durW + 1)

/-- The word has no bit beyond the `DUR_W + 2` of an `RXB` beat (R60, R62). -/
def fitsBeat (c : Config) (w : Nat) : Bool := decide (w < 2 ^ (c.durW + 2))

/-- The duration fits in `DUR_W` bits (R61, 60_exceptions.md R159). -/
def fitsDuration (c : Config) (d : Nat) : Bool := decide (d < 2 ^ c.durW)

/-- The sender is a token of `PEER_W` bits (R70). -/
def fitsPeer (c : Config) (p : Nat) : Bool := decide (p < 2 ^ c.peerW)

/-- The record is a `FRAMEREC` (R72): at most `FRAME_MAX` bytes, 0..7 residual bits, and truncated only
with the buffer full (R98, R129). -/
def isFrameRecord (c : Config) (fr : FrameRecord) : Bool :=
  decide (fr.bytes.length ≤ c.frameMax) && decide (fr.residualBits ≤ 7)
    && (!fr.truncated || decide (fr.bytes.length = c.frameMax))

/-- The `PEV` word of a PulseEvent (R61): `duration` in the low `DUR_W` bits, `level` above it. -/
def pevWord (c : Config) (e : PulseEvent) : Nat := e.level.toNat * 2 ^ c.durW + e.duration

/-- The end-of-batch `RXB` word with the given reserved bits (R62, R74). -/
def eobWord (c : Config) (reserved : Nat) : Nat := 2 ^ (c.durW + 1) + reserved

/-! ### The timing classifier -/

/-- The three classes of R65. -/
inductive PulseClass where
  | short
  | long
  | noise
deriving DecidableEq, Repr

/-- `CLASSIFY` (R90). The level takes no part. -/
def classify (c : Config) (d : Nat) : PulseClass :=
  if c.shortMin ≤ d ∧ d ≤ c.shortMax then .short
  else if c.longMin ≤ d ∧ d ≤ c.longMax then .long
  else .noise

/-! ### The encoder -/

/-- `ENC_BIT1` (R81): low then high. -/
def encBit1Pulses (c : Config) : List PulseEvent := [⟨false, c.txShort⟩, ⟨true, c.txShort⟩]

/-- `ENC_BIT0` (R82): high then low. -/
def encBit0Pulses (c : Config) : List PulseEvent := [⟨true, c.txShort⟩, ⟨false, c.txShort⟩]

/-- The line-code table (R64). -/
def encodeBit (c : Config) (b : Bool) : List PulseEvent := if b then encBit1Pulses c else encBit0Pulses c

/-- The inner loop of `ENCODE` (R80): bit 7 first (R11). -/
def encodeByte (c : Config) (b : Byte) : List PulseEvent :=
  (List.range 8).flatMap fun k => encodeBit c (b.getLsbD (7 - k))

/-- `ENCODE` (R80): the bytes in order. -/
def encodeBytes (c : Config) (bytes : List Byte) : List PulseEvent := bytes.flatMap (encodeByte c)

/-- The `LINK_TX` message of a payload: the `PEV` words of its pulses (R61, R125). -/
def txWords (c : Config) (bytes : List Byte) : List Nat := (encodeBytes c bytes).map (pevWord c)

/-! ### The half-bit windows of a batch -/

/-- The half-bit windows one event stands for (R101): none, one, or two at its level. -/
def windowsOfEvent (c : Config) (e : PulseEvent) : List Bool :=
  match classify c e.duration with
  | .noise => []
  | .short => [e.level]
  | .long => [e.level, e.level]

/-- The sequence `W` of R101. -/
def windowsOf (c : Config) (events : List PulseEvent) : List Bool := events.flatMap (windowsOfEvent c)

/-! ### The accumulator and the log record -/

/-- `v[i] <- b` on a byte (R96). -/
def setBit (v : Byte) (i : Nat) (b : Bool) : Byte :=
  if b then v ||| (1#8 <<< i) else v &&& ~~~(1#8 <<< i)

/-- `PREVIEW` (R132). -/
def preview (c : Config) (xs : List Byte) : List Byte := xs.take c.previewLen

/-- The code of `direction` (R69). -/
def directionCode : Direction → BitVec 1
  | .netToLink => 0
  | .linkToNet => 1

/-- The code of `outcome` (R69). -/
def outcomeCode : LogOutcome → BitVec 2
  | .forwarded => 0
  | .droppedNoPeer => 1
  | .rejectedOversize => 2
  | .forwardedTruncated => 3

end Sys2Proof.Machine
end

