-- ==== Sys2Proof/WellFormed.lean ====
section
/-! DEFINITION. When a term of `Instr` is an operation with operands the spec gives it (the conditions of
the operation map, 30_encoding.md R73, that speak of operands and configuration alone). -/

namespace Sys2Proof

open Machine

/-- The frame record a `FRAME_*` operation takes: a `FRAMEREC` (R72) that is non-empty or not. -/
def wfFrame (c : Config) (nonEmpty : Bool) (fr : FrameRecord) : Bool :=
  isFrameRecord c fr && (decide (1 ≤ fr.bytes.length) == nonEmpty)

/-- The operand of an event operation: a duration of `DUR_W` bits in the operation's class (R65). -/
def wfEvent (c : Config) (k : PulseClass) (d : Nat) : Bool :=
  fitsDuration c d && decide (classify c d = k)

/-- The well-formed operations under a configuration. -/
def Instr.wf (c : Config) : Instr → Bool
  | .reset => true
  | .poll _ => true
  | .netRx m => fitsPeer c m.sender && decide (1 ≤ m.payload.length) && decide (m.payload.length ≤ c.maxPayload)
  | .netRxEmpty sender => fitsPeer c sender
  | .netRxOversize m => fitsPeer c m.sender && decide (c.maxPayload < m.payload.length)
  | .encode bytes => decide (bytes.length ≤ c.maxPayload)
  | .encBit1 => true
  | .encBit0 => true
  | .linkRx events => events.all fun e => fitsDuration c e.duration
  | .evShort _ d => wfEvent c .short d
  | .evLong _ d => wfEvent c .long d
  | .evNoise _ d => wfEvent c .noise d
  | .evEob reserved => decide (reserved < 2 ^ (c.durW + 1))
  | .halfBit _ => true
  | .byteFlush => true
  | .frameFwd fr => wfFrame c true fr && !fr.truncated
  | .frameFwdTrunc fr => wfFrame c true fr && fr.truncated
  | .frameDrop fr => wfFrame c true fr
  | .frameSkip fr => wfFrame c false fr

end Sys2Proof
end

