-- ==== Sys2Proof/Decode.lean ====
section
/-! DEFINITION. The decoder: the operation map of 30_encoding.md R73, from what selects an operation to the
operation, total, rejecting by name; and after it the encoder, from an operation to its selector and words. -/

namespace Sys2Proof

open Machine

/-- Why a selector selects no operation. -/
inductive Reject where
  /-- A word with bits beyond its format: a duration that does not fit `DUR_W` bits (60_exceptions.md R159),
  or a `LINECODE` word of more than one bit (R60). -/
  | wordTooWide
  /-- A `LINK_RX` delivery without an end-of-batch marker at its end (R159). -/
  | noEndMarker
  /-- A `LINK_RX` delivery with beats after an end-of-batch marker (R159). -/
  | beatsAfterEndMarker
  /-- A sender that is not `PEER_W` bits: no `NETIN` message (R70; log 13). -/
  | senderTooWide
  /-- A payload beyond `MAX_PAYLOAD` at the encoder: only accepted payloads are encoded (R80; log 12). -/
  | payloadTooLong
  /-- A record that is no `FRAMEREC` (R72; log 19). -/
  | notFrameRecord
deriving DecidableEq, Repr

/-- The event a beat with `eob = 0` carries (R62, R63). -/
def eventOf (c : Config) (w : Nat) : PulseEvent := ⟨levelOf c w, durationOf c w⟩

/-- Event dispatch (41_decoder.md R91): the operation of one event, chosen by its class. -/
def eventInstr (c : Config) (e : PulseEvent) : Instr :=
  match classify c e.duration with
  | .noise => .evNoise e.level e.duration
  | .short => .evShort e.level e.duration
  | .long => .evLong e.level e.duration

/-- One `RXB` beat (R62, R91, 42_frame.md R112). -/
def decodeBeat (c : Config) (w : Nat) : Except Reject Instr :=
  if fitsBeat c w then
    if eobOf c w then .ok (.evEob (reservedOf c w)) else .ok (eventInstr c (eventOf c w))
  else .error .wordTooWide

/-- The events of one `LINK_RX` delivery: zero or more beats with `eob = 0`, then exactly one with
`eob = 1`; anything else is refused (42_frame.md R116, 60_exceptions.md R159). -/
def decodeBatch (c : Config) : List Nat → Except Reject (List PulseEvent)
  | [] => .error .noEndMarker
  | w :: ws =>
    if fitsBeat c w then
      if eobOf c w then (if ws.isEmpty then .ok [] else .error .beatsAfterEndMarker)
      else
        match decodeBatch c ws with
        | .ok events => .ok (eventOf c w :: events)
        | .error r => .error r
    else .error .wordTooWide

/-- A `NETIN` message, by the length of its payload (43_bridge.md R121). -/
def decodeNetMessage (c : Config) (m : NetMessage) : Except Reject Instr :=
  if fitsPeer c m.sender then
    if c.maxPayload < m.payload.length then .ok (.netRxOversize m)
    else if m.payload.length = 0 then .ok (.netRxEmpty m.sender)
    else .ok (.netRx m)
  else .error .senderTooWide

/-- A frame record, in the order of the tests of 43_bridge.md R126. -/
def decodeFrame (c : Config) (peerValid : Bool) (fr : FrameRecord) : Except Reject Instr :=
  if isFrameRecord c fr then
    if fr.bytes.length = 0 then .ok (.frameSkip fr)
    else if peerValid = false then .ok (.frameDrop fr)
    else if fr.truncated = false then .ok (.frameFwd fr)
    else .ok (.frameFwdTrunc fr)
  else .error .notFrameRecord

/-- A `LINECODE` word (R60, R64): one data bit. -/
def decodeDataBit : Nat → Except Reject Instr
  | 0 => .ok .encBit0
  | 1 => .ok .encBit1
  | _ + 2 => .error .wordTooWide

/-- The operation map (R73). -/
def decode (c : Config) : Selector → Except Reject Instr
  | .resetInput => .ok .reset
  | .tick ord => .ok (.poll ord)
  | .netMessage m => decodeNetMessage c m
  | .payload bytes => if bytes.length ≤ c.maxPayload then .ok (.encode bytes) else .error .payloadTooLong
  | .dataBit w => decodeDataBit w
  | .batch words =>
    match decodeBatch c words with
    | .ok events => .ok (.linkRx events)
    | .error r => .error r
  | .beat w => decodeBeat c w
  | .window level => .ok (.halfBit level)
  | .accumulatorFull => .ok .byteFlush
  | .frame peerValid fr => decodeFrame c peerValid fr

/-- The selector a table word stands for: the table's 1-bit rows are `LINECODE` words and its 18-bit rows
are `RXB` words (opcode_table.json; log 20). -/
def wordSelector (nbits w : Nat) : Selector := if nbits ≤ 8 then .dataBit w else .beat w

/-- The operation the decoder reads from a word of the opcode table, under the reference configuration,
whose widths the table's bit numbers are those of (log 20). -/
def decodeTableWord (nbits w : Nat) : Option Instr :=
  match decode Config.reference (wordSelector nbits w) with
  | .ok i => some i
  | .error _ => none

/-! ### The encoder -/

/-- The words of a batch: one beat per event, then the end-of-batch beat with its reserved bits 0 (R62, R74). -/
def batchWords (c : Config) (events : List PulseEvent) : List Nat :=
  events.map (pevWord c) ++ [eobWord c 0]

/-- What selects an operation, with the words of the spec's encodings. -/
def encode (c : Config) : Instr → Selector
  | .reset => .resetInput
  | .poll ord => .tick ord
  | .netRx m => .netMessage m
  | .netRxEmpty sender => .netMessage ⟨sender, []⟩
  | .netRxOversize m => .netMessage m
  | .encode bytes => .payload bytes
  | .encBit1 => .dataBit 1
  | .encBit0 => .dataBit 0
  | .linkRx events => .batch (batchWords c events)
  | .evShort level d => .beat (pevWord c ⟨level, d⟩)
  | .evLong level d => .beat (pevWord c ⟨level, d⟩)
  | .evNoise level d => .beat (pevWord c ⟨level, d⟩)
  | .evEob reserved => .beat (eobWord c reserved)
  | .halfBit level => .window level
  | .byteFlush => .accumulatorFull
  | .frameFwd fr => .frame true fr
  | .frameFwdTrunc fr => .frame true fr
  | .frameDrop fr => .frame false fr
  | .frameSkip fr => .frame false fr

end Sys2Proof
end

