-- ==== Sys2Proof/Machine/State.lean ====
section
/-! DEFINITION. The state of the core (10_state.md R22) with its configuration (R31) and its environment's
channels (20_memory.md R47), the conditions (60_exceptions.md R140), the refusals (R159), and the state
right after reset (70_reset_and_hazards.md R160). -/

namespace Sys2Proof.Machine

/-- The condition codes of R140. They are names for reasoning and appear on no channel. -/
inductive Condition where
  /-- K1 NOISE, noted by 41_decoder.md R92. -/
  | noise
  /-- K2 TRUNCATED_FRAME, noted by 42_frame.md R112. -/
  | truncatedFrame
  /-- K3 TRANSPORT_OVERFLOW: inside the transport, noted by no rule of the core (R143). -/
  | transportOverflow
  /-- K4 NO_PEER, noted by 43_bridge.md R128. -/
  | noPeer
  /-- K5 UNDETECTED_CORRUPTION: cannot be detected, noted by no rule (R145). -/
  | undetectedCorruption
  /-- K6 OVERSIZE_PAYLOAD, noted by 43_bridge.md R123. -/
  | oversizePayload
  /-- K7 FRAME_OVERFLOW, noted by 41_decoder.md R98. -/
  | frameOverflow
  /-- K8 EMPTY_FRAME, noted by 42_frame.md R112. -/
  | emptyFrame
deriving DecidableEq, Repr

/-- What an operation with a `return` in its rule returned (log 8). -/
inductive Returned where
  | nothing
  /-- ENCODE, ENC_BIT1, ENC_BIT0: a pulse sequence. -/
  | pulses (ps : List PulseEvent)
  /-- EV_EOB, LINK_RX: the frame record. -/
  | frame (fr : FrameRecord)
deriving DecidableEq, Repr

/-- What the environment does before one step and at it (60_exceptions.md R158, 30_encoding.md R77): the
messages that arrive on the input channels, then what is selected (log 5). -/
structure Stimulus where
  netArrivals : List NetMessage := []
  linkArrivals : List (List Nat) := []
  select : Selector
deriving DecidableEq, Repr

/-- The core never stops with a fault: "No condition in this core is fatal to the process" (R146).
No constructor, so no step can answer one (log 21). -/
inductive Fault
deriving DecidableEq, Repr

/-- Why a step has no meaning. Every one is SAFE: nothing is proved of such a run (R159). -/
inductive Refusal where
  /-- Raised by the dispatch of an operation without a meaning; no operation is left without one. Safe. -/
  | notModelled (mnemonic : String)
  /-- Raised by every operation under a configuration that is not legal (R8, R159, 93 I18). Safe. -/
  | configNotLegal
  /-- Raised by POLL before the first RESET (70 R163, 93 I17). Safe. -/
  | notReset
  /-- Raised by an operation which the operation map R73 does not select with these operands in this
  state, so that no execution of it exists (log 12). Safe. -/
  | notSelected
  /-- Raised by the step and by POLL for words and records that select nothing: a delivery that is not one
  whole batch, a duration that does not fit (R159), a sender that is no token (log 13). Safe. -/
  | rejected (why : Reject)
deriving DecidableEq, Repr

/-- The core, its configuration and its environment's channels. -/
structure State where
  /-- The configuration record (R31): static, no operation writes it (log 1). -/
  cfg : Config := Config.reference
  /-- `s.phase` (R23). -/
  phase : Bool := false
  /-- `s.acc_bits` (R24), 0..8. -/
  accBits : Nat := 0
  /-- `s.acc_value` (R25). -/
  accValue : Byte := 0#8
  /-- `s.frame_len` (R26), 0..`FRAME_MAX`. -/
  frameLen : Nat := 0
  /-- `s.frame_trunc` (R27). -/
  frameTrunc : Bool := false
  /-- `FrameBuf` (R28, R42), in canonical form; unlisted bytes as in log 4. -/
  frameBuf : List Host.Cell := []
  /-- `s.peer_valid` (R29). -/
  peerValid : Bool := false
  /-- `s.peer_addr` (R30); its reset value is log 3. -/
  peerAddr : Nat := 0
  /-- Messages waiting on `NET_IN`, oldest first (R47). -/
  netIn : List NetMessage := []
  /-- Deliveries waiting on `LINK_RX`, oldest first, each the words of one batch (R47, R62). -/
  linkRx : List (List Nat) := []
  /-- Everything emitted on the output channels, oldest first (R47, R134; log 7). -/
  out : List Output := []
  /-- What the environment will do at the coming steps (log 5). -/
  stimulus : List Stimulus := []
  /-- How many draws the free value `Config.freeOrder` has supplied (log 6). -/
  drawCount : Nat := 0
  /-- The value the last returning operation returned (log 8). -/
  result : Returned := .nothing
  /-- The conditions noted so far, oldest first (R12, R140; log 9). -/
  notes : List Condition := []
  /-- RESET has been applied (R163; log 10). -/
  booted : Bool := false
deriving DecidableEq, Repr

/-- The machine right after RESET (R160), under the reference configuration (R7), with nothing waiting and
nothing emitted. `peer_addr` and `FrameBuf` are unspecified by the spec: logs 3 and 4. -/
def State.reset : State :=
  { cfg := Config.reference
    phase := false
    accBits := 0
    accValue := 0#8
    frameLen := 0
    frameTrunc := false
    frameBuf := []
    peerValid := false
    peerAddr := 0
    netIn := []
    linkRx := []
    out := []
    stimulus := []
    drawCount := 0
    result := .nothing
    notes := []
    booted := true }

end Sys2Proof.Machine
end

