-- ==== Sys2Proof/Machine/Flags.lean ====
section
/-! DEFINITION. The core's 1-bit state (10_state.md R33: no condition codes, no status flags; only `phase`,
`frame_trunc` and `peer_valid`), and the note of a condition (00_scope.md R12). -/

namespace Sys2Proof.Machine

/-- `s.phase <- 1 - s.phase` (41_decoder.md R95). -/
def togglePhase (s : State) : State := { s with phase := !s.phase }

/-- `s.frame_trunc <- 1` (41_decoder.md R98). -/
def setFrameTrunc (s : State) : State := { s with frameTrunc := true }

/-- `s.peer_addr <- sender; s.peer_valid <- 1` (43_bridge.md R122, R124). -/
def recordPeer (sender : Nat) (s : State) : State := { s with peerAddr := sender, peerValid := true }

/-- `note K<n>` (R12): marks that the condition occurred; writes no state of the core, emits nothing (log 9). -/
def note (k : Condition) (s : State) : State := { s with notes := s.notes ++ [k] }

/-- The note of a condition that occurs when a test holds. -/
def noteIf (b : Bool) (k : Condition) (s : State) : State := if b then note k s else s

/-- `acc_bits` is 0..7, as between operations (10_state.md R24: the value 8 exists only inside one half-bit
window operation). -/
def accumulatorOpen (s : State) : Bool := decide (s.accBits ≤ 7)

end Sys2Proof.Machine
end

