-- ==== Sys2Proof/Machine/Ops.lean ====
section
/-! DEFINITION. The shared operations: the frame buffer (20_memory.md R42), the channels (R47, R55), the
decoder's windows and flush (41_decoder.md R91 to R99), the frame boundary (42_frame.md R111, R112), the
bridge's operations (43_bridge.md R121 to R129), reset (70_reset_and_hazards.md R160), and the fetch of what
the environment selects (log 5). The core takes no exception and returns from none (60_exceptions.md R146);
what stands in its place is `note`. -/

namespace Sys2Proof.Machine

/-! ### The frame buffer -/

/-- What a byte of `FrameBuf` that nothing has written reads as. The spec leaves it unspecified and lets no
rule read it (R28); DESIGN CHOICE 0x00 (log 4). -/
def Memory.unlisted : Byte := 0#8

/-- `MemRead(i, 1)` (R12, R42). -/
def Memory.read : List Host.Cell → Nat → Byte
  | [], _ => Memory.unlisted
  | (a, b) :: m, i => if a = i then b else Memory.read m i

/-- `MemWrite(i, 1, v)` (R12, R42), keeping the canonical form. -/
def Memory.write : List Host.Cell → Nat → Byte → List Host.Cell
  | [], i, v => if v = Memory.unlisted then [] else [(i, v)]
  | (a, b) :: m, i, v =>
    if i < a then (if v = Memory.unlisted then (a, b) :: m else (i, v) :: (a, b) :: m)
    else if i = a then (if v = Memory.unlisted then m else (i, v) :: m)
    else (a, b) :: Memory.write m i v

/-- Every address listed is above `lo`, addresses rise strictly, no entry is what an unlisted one reads. -/
def Memory.wfAbove : Nat → List Host.Cell → Bool
  | _, [] => true
  | lo, (a, b) :: m => decide (lo ≤ a) && decide (b ≠ Memory.unlisted) && Memory.wfAbove (a + 1) m

/-- The canonical form: equal frame buffers are equal lists. -/
def Memory.wf (m : List Host.Cell) : Bool := Memory.wfAbove 0 m

/-- No address at or above `FRAME_MAX` is listed (R42: no access is ever made there). -/
def Memory.inside (frameMax : Nat) (m : List Host.Cell) : Bool := m.all fun cell => decide (cell.1 < frameMax)

/-- `[FrameBuf[0], ..., FrameBuf[n-1]]` (R112). -/
def Memory.firstBytes (m : List Host.Cell) (n : Nat) : List Byte := (List.range n).map (Memory.read m)

/-! ### Channels -/

/-- `emit P(m)` (R12, R55). -/
def emit (o : Output) (s : State) : State := { s with out := s.out ++ [o] }

/-- A log record emitted on `LOG_OUT` (43_bridge.md R133). -/
def emitLog (d : Direction) (o : LogOutcome) (payload : List Byte) (s : State) : State :=
  emit (.logOut ⟨d, o, payload.length, preview s.cfg payload⟩) s

/-! ### The decoder -/

/-- `FRAME_FULL` (R98): the byte is discarded. -/
def frameFull (s : State) : State := note .frameOverflow (setFrameTrunc s)

/-- The store of `BYTE_FLUSH` (R97), or `FRAME_FULL` where the buffer is full. -/
def storeByte (s : State) : State :=
  if s.frameLen < s.cfg.frameMax then
    { s with frameBuf := Memory.write s.frameBuf s.frameLen s.accValue, frameLen := s.frameLen + 1 }
  else frameFull s

/-- "and reset accumulator" (R97, D22). -/
def clearAccumulator (s : State) : State := { s with accValue := 0#8, accBits := 0 }

/-- `BYTE_FLUSH` (R97). -/
def byteFlush (s : State) : State := clearAccumulator (storeByte s)

/-- The first two lines of `RESOLVE` (R96): `s.acc_value[7 - s.acc_bits] <- level`, then the count. -/
def appendBit (level : Bool) (s : State) : State :=
  { s with accValue := setBit s.accValue (7 - s.accBits) level, accBits := s.accBits + 1 }

/-- `RESOLVE` (R96). -/
def resolve (level : Bool) (s : State) : State :=
  if s.accBits + 1 = 8 then byteFlush (appendBit level s) else appendBit level s

/-- `HALF_BIT` (R95). -/
def halfBit (level : Bool) (s : State) : State :=
  togglePhase (if s.phase then resolve level s else s)

/-- `EV_NOISE` (R92): nothing but the note. -/
def evNoise (s : State) : State := note .noise s

/-- `EV_SHORT` (R93). -/
def evShort (level : Bool) (s : State) : State := halfBit level s

/-- `EV_LONG` (R94): two windows at the same level. -/
def evLong (level : Bool) (s : State) : State := halfBit level (halfBit level s)

/-- `EVENT` (R91). -/
def event (s : State) (e : PulseEvent) : State :=
  match classify s.cfg e.duration with
  | .noise => evNoise s
  | .short => evShort e.level s
  | .long => evLong e.level s

/-- The events of a batch, each once, in order (R91, R99). -/
def events (evs : List PulseEvent) (s : State) : State := evs.foldl event s

/-! ### The frame boundary -/

/-- `BATCH_START` (R111), and the last five lines of `EV_EOB` (R112): the decoder's reset values. -/
def batchStart (s : State) : State :=
  { s with phase := false, accValue := 0#8, accBits := 0, frameLen := 0, frameTrunc := false }

/-- The frame record `EV_EOB` returns (R112). -/
def frameRecordOf (s : State) : FrameRecord :=
  ⟨Memory.firstBytes s.frameBuf s.frameLen, s.accBits, s.frameTrunc⟩

/-- The state `EV_EOB` leaves (R112): K2 and K8 noted, the residue discarded. -/
def endOfBatch (s : State) : State :=
  batchStart (noteIf (decide (s.frameLen = 0)) .emptyFrame (noteIf (decide (s.accBits ≠ 0)) .truncatedFrame s))

/-- `DECODE` (R99): decoded bytes, residual-bits count, truncation. -/
def decodeEvents (evs : List PulseEvent) (s : State) : List Byte × Nat × Bool :=
  let t := events evs (batchStart s)
  (Memory.firstBytes t.frameBuf t.frameLen, t.accBits, t.frameTrunc)

/-- The state of the decoder at the end of a batch's events, before `EV_EOB` (R111). -/
def batchDecoded (evs : List PulseEvent) (s : State) : State := events evs (batchStart s)

/-- The frame record `LINK_RX` returns (R111). -/
def linkRxRecord (evs : List PulseEvent) (s : State) : FrameRecord := frameRecordOf (batchDecoded evs s)

/-- The state `LINK_RX` leaves (R111). -/
def linkRxState (evs : List PulseEvent) (s : State) : State := endOfBatch (batchDecoded evs s)

/-! ### The bridge -/

/-- `NET_RX` (R122). -/
def netRx (m : NetMessage) (s : State) : State :=
  emitLog .netToLink .forwarded m.payload (emit (.linkTx (txWords s.cfg m.payload)) (recordPeer m.sender s))

/-- `NET_RX_EMPTY` (R124). -/
def netRxEmpty (sender : Nat) (s : State) : State :=
  emitLog .netToLink .forwarded [] (emit (.linkTx []) (recordPeer sender s))

/-- `NET_RX_OVERSIZE` (R123). -/
def netRxOversize (m : NetMessage) (s : State) : State :=
  emitLog .netToLink .rejectedOversize m.payload (note .oversizePayload s)

/-- A frame forwarded to the peer, then logged (R127, R129, R134). -/
def forward (o : LogOutcome) (fr : FrameRecord) (s : State) : State :=
  emitLog .linkToNet o fr.bytes (emit (.netOut s.peerAddr fr.bytes) s)

/-- `FRAME_FWD` (R127). -/
def frameFwd (fr : FrameRecord) (s : State) : State := forward .forwarded fr s

/-- `FRAME_FWD_TRUNC` (R129). -/
def frameFwdTrunc (fr : FrameRecord) (s : State) : State := forward .forwardedTruncated fr s

/-- `FRAME_DROP` (R128). -/
def frameDrop (fr : FrameRecord) (s : State) : State :=
  emitLog .linkToNet .droppedNoPeer fr.bytes (note .noPeer s)

/-- `FRAME_SKIP` (42_frame.md R113): nothing is emitted, nothing read. -/
def frameSkip (s : State) : State := s

/-- What the bridge does with a message taken from `NET_IN` (the tests of R121). -/
def netDispatch (m : NetMessage) (s : State) : State :=
  if s.cfg.maxPayload < m.payload.length then netRxOversize m s
  else if m.payload.length = 0 then netRxEmpty m.sender s
  else netRx m s

/-- What the bridge does with a frame record (the tests of R126, whose order is R148's priority). -/
def frameDispatch (fr : FrameRecord) (s : State) : State :=
  if fr.bytes.length = 0 then frameSkip s
  else if s.peerValid = false then frameDrop fr s
  else if fr.truncated = false then frameFwd fr s
  else frameFwdTrunc fr s

/-- `NET_STEP` (R121): one non-blocking check of `NET_IN`. A message that is no `NETIN` record is refused (log 13). -/
def netStep (s : State) : Host.Outcome State Fault Refusal :=
  match s.netIn with
  | [] => .next s
  | m :: rest =>
    if fitsPeer s.cfg m.sender then .next (netDispatch m { s with netIn := rest })
    else .refused (.rejected .senderTooWide)

/-- `LINK_STEP` (R126): one non-blocking check of `LINK_RX`. A delivery that is not one whole batch is
refused (R159; log 15). -/
def linkStep (s : State) : Host.Outcome State Fault Refusal :=
  match s.linkRx with
  | [] => .next s
  | words :: rest =>
    match decodeBatch s.cfg words with
    | .error r => .refused (.rejected r)
    | .ok evs => .next (frameDispatch (linkRxRecord evs s) (linkRxState evs { s with linkRx := rest }))

/-- One operation after another, stopping at the first that gives no next state. -/
def andThen (o : Host.Outcome State Fault Refusal) (f : State → Host.Outcome State Fault Refusal) :
    Host.Outcome State Fault Refusal :=
  match o with
  | .next s => f s
  | .fault r => .fault r
  | .refused r => .refused r

/-- The body of `POLL` (R120) for one draw: both directions attempted once, in the drawn order. -/
def pollIteration (ord : Order) (s : State) : Host.Outcome State Fault Refusal :=
  match ord with
  | .netFirst => andThen (netStep s) linkStep
  | .linkFirst => andThen (linkStep s) netStep

/-! ### Reset, selection and fetch -/

/-- `RESET` (R160): neither `peer_addr` nor `FrameBuf` is written, no channel is touched (R161). -/
def resetCore (s : State) : State :=
  { batchStart s with peerValid := false, booted := true }

/-- The conditions of the operation map R73 (and 10_state.md R24) that speak of the state. -/
def stateSelects (s : State) : Instr → Bool
  | .reset => true
  | .poll _ => true
  | .netRx _ => true
  | .netRxEmpty _ => true
  | .netRxOversize _ => true
  | .encode _ => true
  | .encBit1 => true
  | .encBit0 => true
  | .linkRx _ => true
  | .evShort _ _ => accumulatorOpen s
  | .evLong _ _ => accumulatorOpen s
  | .evNoise _ _ => true
  | .evEob _ => accumulatorOpen s
  | .halfBit _ => accumulatorOpen s
  | .byteFlush => decide (s.accBits = 8)
  | .frameFwd _ => s.peerValid
  | .frameFwdTrunc _ => s.peerValid
  | .frameDrop _ => !s.peerValid
  | .frameSkip _ => true

/-- The operation map selects this operation with these operands in this state (R73). -/
def selected (i : Instr) (s : State) : Bool := i.wf s.cfg && stateSelects s i

/-- An operation runs under a legal configuration (R8) when the operation map selects it (R73; log 12). -/
def whenSelected (i : Instr) (s : State) (o : Host.Outcome State Fault Refusal) :
    Host.Outcome State Fault Refusal :=
  if cfgLegal s.cfg = false then .refused .configNotLegal
  else if selected i s = false then .refused .notSelected
  else o

/-- The arrivals of one stimulus reach the input channels, in order, before the step it describes (R47, R158). -/
def arrive (st : Stimulus) (s : State) : State :=
  { s with netIn := s.netIn ++ st.netArrivals, linkRx := s.linkRx ++ st.linkArrivals }

/-- What is selected next, and the state in which it runs: the oldest stimulus, or, where the environment
gives none, a scheduler tick whose order is a fresh draw of the free value (R120; logs 5 and 6). -/
def fetch (s : State) : Selector × State :=
  match s.stimulus with
  | st :: rest => (st.select, arrive st { s with stimulus := rest })
  | [] => (.tick (Config.freeOrder s.drawCount), { s with drawCount := s.drawCount + 1 })

/-- A table word set as what is selected next, with no arrivals (log 20). -/
def presentWord (s : State) (nbits w : Nat) : State :=
  { s with stimulus := { select := wordSelector nbits w } :: s.stimulus }

end Sys2Proof.Machine
end

