-- ==== Sys2Proof/Machine/Bridge.lean ====
section
/-! DEFINITION. NET_RX, NET_RX_EMPTY, NET_RX_OVERSIZE, FRAME_FWD, FRAME_FWD_TRUNC, FRAME_DROP
(43_bridge.md R122 to R129). -/

namespace Sys2Proof.Machine

/-- `NET_RX` (R122). -/
def execNetRx (m : NetMessage) (s : State) : Host.Outcome State Fault Refusal :=
  whenSelected (.netRx m) s (.next (netRx m s))

/-- `NET_RX_EMPTY` (R124). -/
def execNetRxEmpty (sender : Nat) (s : State) : Host.Outcome State Fault Refusal :=
  whenSelected (.netRxEmpty sender) s (.next (netRxEmpty sender s))

/-- `NET_RX_OVERSIZE` (R123). -/
def execNetRxOversize (m : NetMessage) (s : State) : Host.Outcome State Fault Refusal :=
  whenSelected (.netRxOversize m) s (.next (netRxOversize m s))

/-- `FRAME_FWD` (R127). -/
def execFrameFwd (fr : FrameRecord) (s : State) : Host.Outcome State Fault Refusal :=
  whenSelected (.frameFwd fr) s (.next (frameFwd fr s))

/-- `FRAME_FWD_TRUNC` (R129). -/
def execFrameFwdTrunc (fr : FrameRecord) (s : State) : Host.Outcome State Fault Refusal :=
  whenSelected (.frameFwdTrunc fr) s (.next (frameFwdTrunc fr s))

/-- `FRAME_DROP` (R128). -/
def execFrameDrop (fr : FrameRecord) (s : State) : Host.Outcome State Fault Refusal :=
  whenSelected (.frameDrop fr) s (.next (frameDrop fr s))

end Sys2Proof.Machine
end

