-- ==== Sys2Proof/Machine/Decoder.lean ====
section
/-! DEFINITION. EV_SHORT, EV_LONG, EV_NOISE, HALF_BIT, BYTE_FLUSH (41_decoder.md R92 to R97), each as one
operation on its own (log 11). -/

namespace Sys2Proof.Machine

/-- `EV_SHORT` (R93): the duration within the window has no effect. -/
def execEvShort (level : Bool) (duration : Nat) (s : State) : Host.Outcome State Fault Refusal :=
  whenSelected (.evShort level duration) s (.next (evShort level s))

/-- `EV_LONG` (R94). -/
def execEvLong (level : Bool) (duration : Nat) (s : State) : Host.Outcome State Fault Refusal :=
  whenSelected (.evLong level duration) s (.next (evLong level s))

/-- `EV_NOISE` (R92): the level is ignored. -/
def execEvNoise (level : Bool) (duration : Nat) (s : State) : Host.Outcome State Fault Refusal :=
  whenSelected (.evNoise level duration) s (.next (evNoise s))

/-- `HALF_BIT` (R95). -/
def execHalfBit (level : Bool) (s : State) : Host.Outcome State Fault Refusal :=
  whenSelected (.halfBit level) s (.next (halfBit level s))

/-- `BYTE_FLUSH` (R97). -/
def execByteFlush (s : State) : Host.Outcome State Fault Refusal :=
  whenSelected .byteFlush s (.next (byteFlush s))

end Sys2Proof.Machine
end

