-- ==== Sys2Proof/Machine/Encoder.lean ====
section
/-! DEFINITION. ENCODE, ENC_BIT1, ENC_BIT0 (40_encoder.md R80 to R85). They write no state of the core; the
pulses they return stand in `State.result` (log 8). -/

namespace Sys2Proof.Machine

/-- `ENCODE` (R80). -/
def execEncode (bytes : List Byte) (s : State) : Host.Outcome State Fault Refusal :=
  whenSelected (.encode bytes) s (.next { s with result := .pulses (encodeBytes s.cfg bytes) })

/-- `ENC_BIT1` (R81). -/
def execEncBit1 (s : State) : Host.Outcome State Fault Refusal :=
  whenSelected .encBit1 s (.next { s with result := .pulses (encBit1Pulses s.cfg) })

/-- `ENC_BIT0` (R82). -/
def execEncBit0 (s : State) : Host.Outcome State Fault Refusal :=
  whenSelected .encBit0 s (.next { s with result := .pulses (encBit0Pulses s.cfg) })

end Sys2Proof.Machine
end

