-- ==== Sys2Proof/Machine/Frame.lean ====
section
/-! DEFINITION. LINK_RX, EV_EOB, FRAME_SKIP (42_frame.md R111 to R113). The frame record LINK_RX and EV_EOB
return stands in `State.result` (log 8). -/

namespace Sys2Proof.Machine

/-- `LINK_RX` (R111): one whole batch, decoded as one unit. -/
def execLinkRx (evs : List PulseEvent) (s : State) : Host.Outcome State Fault Refusal :=
  whenSelected (.linkRx evs) s (.next { linkRxState evs s with result := .frame (linkRxRecord evs s) })

/-- `EV_EOB` (R112): the reserved bits are ignored (30_encoding.md R74). -/
def execEvEob (reserved : Nat) (s : State) : Host.Outcome State Fault Refusal :=
  whenSelected (.evEob reserved) s (.next { endOfBatch s with result := .frame (frameRecordOf s) })

/-- `FRAME_SKIP` (R113). -/
def execFrameSkip (fr : FrameRecord) (s : State) : Host.Outcome State Fault Refusal :=
  whenSelected (.frameSkip fr) s (.next (frameSkip s))

end Sys2Proof.Machine
end

