-- ==== Sys2Proof/Machine/System.lean ====
section
/-! DEFINITION. RESET (70_reset_and_hazards.md R160) and POLL (43_bridge.md R120). -/

namespace Sys2Proof.Machine

/-- `RESET` (R160). -/
def execReset (s : State) : Host.Outcome State Fault Refusal :=
  whenSelected .reset s (.next (resetCore s))

/-- `POLL` (R120): one atomic iteration; refused before the first RESET (R163; log 10). -/
def execPoll (ord : Order) (s : State) : Host.Outcome State Fault Refusal :=
  whenSelected (.poll ord) s (if s.booted then pollIteration ord s else .refused .notReset)

end Sys2Proof.Machine
end

