-- ==== Sys2Proof/Machine/Dispatch.lean ====
section
/-! DEFINITION. One arm per constructor of `Instr`. -/

namespace Sys2Proof.Machine

def exec (i : Instr) (s : State) : Host.Outcome State Fault Refusal :=
  match i with
  | .reset => Sys2Proof.Machine.execReset s
  | .poll ord => Sys2Proof.Machine.execPoll ord s
  | .netRx m => Sys2Proof.Machine.execNetRx m s
  | .netRxEmpty sender => Sys2Proof.Machine.execNetRxEmpty sender s
  | .netRxOversize m => Sys2Proof.Machine.execNetRxOversize m s
  | .encode bytes => Sys2Proof.Machine.execEncode bytes s
  | .encBit1 => Sys2Proof.Machine.execEncBit1 s
  | .encBit0 => Sys2Proof.Machine.execEncBit0 s
  | .linkRx evs => Sys2Proof.Machine.execLinkRx evs s
  | .evShort level duration => Sys2Proof.Machine.execEvShort level duration s
  | .evLong level duration => Sys2Proof.Machine.execEvLong level duration s
  | .evNoise level duration => Sys2Proof.Machine.execEvNoise level duration s
  | .evEob reserved => Sys2Proof.Machine.execEvEob reserved s
  | .halfBit level => Sys2Proof.Machine.execHalfBit level s
  | .byteFlush => Sys2Proof.Machine.execByteFlush s
  | .frameFwd fr => Sys2Proof.Machine.execFrameFwd fr s
  | .frameFwdTrunc fr => Sys2Proof.Machine.execFrameFwdTrunc fr s
  | .frameDrop fr => Sys2Proof.Machine.execFrameDrop fr s
  | .frameSkip fr => Sys2Proof.Machine.execFrameSkip fr s

end Sys2Proof.Machine
end

