-- ==== Sys2Proof/Machine/Step.lean ====
section
/-! DEFINITION. One step: what the environment selects next is fetched, decoded by the operation map and run. -/

namespace Sys2Proof.Machine

/-- One step of the machine. -/
def step (s : State) : Host.Outcome State Fault Refusal :=
  match decode (fetch s).2.cfg (fetch s).1 with
  | .ok i => exec i (fetch s).2
  | .error r => .refused (.rejected r)

/-- The state with a word of the opcode table placed where the step fetches next (log 20). -/
def State.withFetchWord (s : State) (nbits w : Nat) : State := presentWord s nbits w

end Sys2Proof.Machine
end

