-- ==== Sys2Proof/Machine/Stimuli.lean ====
section
/-! DEFINITION. The spec's text form for pulses and stimulus lines (00_scope.md R13, 30_encoding.md R77), as
functions: what the environment is given to write. -/

namespace Sys2Proof.Machine

/-- `S0`, `S1` (R13). -/
def pulseS (c : Config) (level : Bool) : PulseEvent := ⟨level, c.txShort⟩

/-- `L0`, `L1` (R13). -/
def pulseL (c : Config) (level : Bool) : PulseEvent := ⟨level, 2 * c.txShort⟩

/-- `P(d,l)` (R13), and `N(d,l)` where `d` is in neither window (R77). -/
def pulseP (duration : Nat) (level : Bool) : PulseEvent := ⟨level, duration⟩

/-- `BYTE(b)` (R77). -/
def byteForm (c : Config) (b : Byte) : List PulseEvent := encodeBytes c [b]

/-- `FRAME(b0, ..., bn)` (R77), as the words of its beats. -/
def frameForm (c : Config) (bytes : List Byte) : List Nat := batchWords c (bytes.flatMap (byteForm c))

/-- The line `reset` (R77). -/
def resetLine : Stimulus := { select := .resetInput }

/-- The line `iter <order> net=<m> link=<b>` (R77). -/
def iterLine (ord : Order) (net : Option NetMessage) (link : Option (List Nat)) : Stimulus :=
  { netArrivals := net.toList, linkArrivals := link.toList, select := .tick ord }

end Sys2Proof.Machine
end

