-- ==== Sys2Proof/Safety.lean ====
section
/-! DEFINITION. What the statements about runs say: the state invariant, the decoder at rest between batches,
the environment's duties, and runs at transaction level. -/

namespace Sys2Proof.Machine

/-- An emitted message has the form its format gives it: `PEV` words (30_encoding.md R61), a token of
`PEER_W` bits with 1..`FRAME_MAX` bytes (R71), a preview of `min(byte_count, PREVIEW_LEN)` bytes (R68). -/
def outputOk (c : Config) : Output → Bool
  | .linkTx words => words.all fun w => decide (w < 2 ^ (c.durW + 1))
  | .netOut addr payload =>
    fitsPeer c addr && decide (1 ≤ payload.length) && decide (payload.length ≤ c.frameMax)
  | .logOut r => decide (r.preview.length = min r.byteCount c.previewLen)

/-- The invariant of the machine: every field in the range 10_state.md R22 to R30 gives it. -/
structure Inv (s : State) : Prop where
  /-- The configuration is one the spec gives a meaning to (R8). -/
  legal : cfgLegal s.cfg = true
  /-- `acc_bits` is 0..7 between operations (R24). -/
  accBits : s.accBits ≤ 7
  /-- The bits of `acc_value` not yet written hold 0 (R25). -/
  accClear : ∀ j, j < 8 - s.accBits → s.accValue.getLsbD j = false
  /-- `frame_len` is 0..`FRAME_MAX` (R26). -/
  frameLen : s.frameLen ≤ s.cfg.frameMax
  /-- `frame_trunc` is 1 only with the buffer full (R27, R98). -/
  frameTrunc : s.frameTrunc = true → s.frameLen = s.cfg.frameMax
  /-- `FrameBuf` is in canonical form and has no byte at or above `FRAME_MAX` (20_memory.md R42). -/
  bufWf : Memory.wf s.frameBuf = true
  bufInside : Memory.inside s.cfg.frameMax s.frameBuf = true
  /-- `peer_addr` is a token of `PEER_W` bits (R30). -/
  peer : fitsPeer s.cfg s.peerAddr = true
  /-- Every message emitted has its format's form (30_encoding.md R61, R68, R71). -/
  outputs : ∀ o ∈ s.out, outputOk s.cfg o = true

/-- The decoder holds its reset values, as between batches (10_state.md R35, 70_reset_and_hazards.md R162). -/
def DecoderAtRest (s : State) : Prop :=
  s.phase = false ∧ s.accBits = 0 ∧ s.accValue = 0#8 ∧ s.frameLen = 0 ∧ s.frameTrunc = false

/-- Everything but the decoder's own fields is the same: configuration, bridge state, channels and the model's
other fields. What the decoder's operations leave alone (10_state.md R22, columns "written by"). -/
structure SameOutsideDecoder (s t : State) : Prop where
  cfg : t.cfg = s.cfg
  peerValid : t.peerValid = s.peerValid
  peerAddr : t.peerAddr = s.peerAddr
  netIn : t.netIn = s.netIn
  linkRx : t.linkRx = s.linkRx
  out : t.out = s.out
  stimulus : t.stimulus = s.stimulus
  drawCount : t.drawCount = s.drawCount
  booted : t.booted = s.booted

/-- The decoder's fields are the same, its frame buffer byte by byte: what the bridge's and the encoder's
operations leave alone. -/
structure SameDecoder (s t : State) : Prop where
  phase : t.phase = s.phase
  accBits : t.accBits = s.accBits
  accValue : t.accValue = s.accValue
  frameLen : t.frameLen = s.frameLen
  frameTrunc : t.frameTrunc = s.frameTrunc
  frameBuf : ∀ i, Memory.read t.frameBuf i = Memory.read s.frameBuf i

/-- A delivery that is one whole batch (42_frame.md R116, 60_exceptions.md R159): words of the `RXB` width, the
last and only the last with `eob = 1`. -/
def WholeBatch (c : Config) (words : List Nat) : Prop :=
  ∃ body last, words = body ++ [last] ∧ (∀ w ∈ words, fitsBeat c w = true) ∧
    (∀ w ∈ body, eobOf c w = false) ∧ eobOf c last = true

/-- The environment's duties for the next iteration (60_exceptions.md R158): the next `NET_IN` message is a
`NETIN` record, the next `LINK_RX` delivery is one whole batch. -/
def WithinDuties (s : State) : Prop :=
  (∀ m ∈ s.netIn.head?, fitsPeer s.cfg m.sender = true) ∧ (∀ b ∈ s.linkRx.head?, WholeBatch s.cfg b)

/-- The environment selects only what it can select of the core as a whole: reset and ticks (R158), no
operation of a sub-block on its own (log 11). -/
def TransactionLevel (s : State) : Prop :=
  ∀ st ∈ s.stimulus, st.select = .resetInput ∨ ∃ ord, st.select = .tick ord

/-- Operations one after another, stopping at the first that gives no next state: the beat-level form of a
batch (42_frame.md R116). -/
def runOps : List Instr → State → Host.Outcome State Fault Refusal
  | [], s => .next s
  | i :: is, s => andThen (exec i s) (runOps is)

/-- The index of `FrameBuf` an operation of the decoder stores to, if it stores: `frame_len`, at the flush of an
eighth bit (41_decoder.md R95 to R97) while `frame_len < FRAME_MAX` (20_memory.md R42). -/
def storedIndex (i : Instr) (s : State) : Option Nat :=
  let flushes : Bool :=
    match i with
    | .evShort _ _ => s.phase && decide (s.accBits = 7)
    | .halfBit _ => s.phase && decide (s.accBits = 7)
    | .evLong _ _ => decide (s.accBits = 7)
    | .byteFlush => true
    | _ => false
  if flushes ∧ s.frameLen < s.cfg.frameMax then some s.frameLen else none

/-- How many bytes of `FrameBuf` a batch writes: its complete bytes, at most `FRAME_MAX` (41_decoder.md R101). -/
def bytesStored (c : Config) (evs : List PulseEvent) : Nat := min ((windowsOf c evs).length / 16) c.frameMax

/-- The log records of a list of outputs. -/
def logsOf (os : List Output) : List LogRecord :=
  os.filterMap fun o => match o with | .logOut r => some r | _ => none

/-- The `NET_OUT` messages of a list of outputs. -/
def netOutsOf (os : List Output) : List (Nat × List Byte) :=
  os.filterMap fun o => match o with | .netOut a p => some (a, p) | _ => none

/-- The `LINK_TX` messages of a list of outputs. -/
def linkTxsOf (os : List Output) : List (List Nat) :=
  os.filterMap fun o => match o with | .linkTx ws => some ws | _ => none

end Sys2Proof.Machine
end

