-- ==== Sys2Proof/Certificates/Slice0/Obligations.lean ====
section
/-! DEFINITION. The statements for the provers. Each docstring names the rule or the sections it formalises.
An operation is refused when the operation map does not select it (log 12), so the hypotheses of a result are
the conditions of that map (30_encoding.md R73) and a legal configuration (00_scope.md R7, R8). -/

open Sys2Proof Sys2Proof.Machine

/-! ### Reset, configuration, the step -/

/-- R160: RESET writes these values and nothing else: `peer_addr`, `FrameBuf`, the configuration and the channels
are as before and nothing is emitted. (`booted` is the model's own mark that RESET was applied, log 10.) -/
def Obligations.ResetWritesItsValuesOnly : Prop :=
  ∀ s : State, cfgLegal s.cfg = true →
    exec .reset s = .next { s with
      phase := false, accValue := 0#8, accBits := 0, frameLen := 0, frameTrunc := false,
      peerValid := false, booted := true }

/-- 10_state.md section 2 and 00_scope.md section 3: the state right after reset holds the spec's reset values
and the reference parameters. (`peer_addr`, `FrameBuf` and `PEER_W`, which the spec leaves open, are not named:
logs 2, 3, 4.) -/
def Obligations.StateAfterResetHoldsSpecValues : Prop :=
  State.reset.phase = false ∧ State.reset.accBits = 0 ∧ State.reset.accValue = 0#8 ∧ State.reset.frameLen = 0 ∧
  State.reset.frameTrunc = false ∧ State.reset.peerValid = false ∧ State.reset.out = [] ∧
  State.reset.cfg.durW = 16 ∧ State.reset.cfg.shortMin = 7 ∧ State.reset.cfg.shortMax = 13 ∧
  State.reset.cfg.longMin = 17 ∧ State.reset.cfg.longMax = 23 ∧ State.reset.cfg.txShort = 10 ∧
  State.reset.cfg.maxPayload = 1024 ∧ State.reset.cfg.frameMax = 1024 ∧ State.reset.cfg.previewLen = 0 ∧
  cfgLegal State.reset.cfg = true

/-- R8: a configuration for which `cfg_ok` is false is refused, by every operation; the reference values satisfy
`cfg_ok`. -/
def Obligations.ConfigurationFailingCfgOkIsRefused : Prop :=
  (∀ (i : Instr) (s : State),
    ¬ (s.cfg.shortMin ≤ s.cfg.shortMax ∧ s.cfg.longMin ≤ s.cfg.longMax ∧ s.cfg.shortMax < s.cfg.longMin ∧
      s.cfg.shortMin ≤ s.cfg.txShort ∧ s.cfg.txShort ≤ s.cfg.shortMax ∧ s.cfg.longMax ≤ 2 ^ s.cfg.durW - 1 ∧
      1 ≤ s.cfg.frameMax ∧ 1 ≤ s.cfg.maxPayload) →
    exec i s = .refused .configNotLegal) ∧ cfgOk Config.reference = true

/-- 70_reset_and_hazards.md section 2: a POLL from an unreset state is refused. -/
def Obligations.PollBeforeResetIsRefused : Prop :=
  ∀ (ord : Order) (s : State), cfgLegal s.cfg = true → s.booted = false →
    exec (.poll ord) s = .refused .notReset

/-- 30_encoding.md section 6 (the refusal is the model's, log 12): under a legal configuration an operation is refused
as not selected exactly when its operands are not those the operation map gives it, or the state is not one the map
selects it in: `acc_bits` at most 7 for the events, windows and the end of a batch, `acc_bits` = 8 for BYTE_FLUSH,
`peer_valid` = 1 for the forwards and 0 for the drop. -/
def Obligations.RefusedExactlyWhenNotSelected : Prop :=
  ∀ (i : Instr) (s : State), cfgLegal s.cfg = true →
    (exec i s = .refused .notSelected ↔
      i.wf s.cfg = false ∨
      (7 < s.accBits ∧ ((∃ l d, i = .evShort l d) ∨ (∃ l d, i = .evLong l d) ∨ (∃ r, i = .evEob r) ∨
        ∃ l, i = .halfBit l)) ∨
      (s.accBits ≠ 8 ∧ i = .byteFlush) ∨
      (s.peerValid = false ∧ ((∃ fr, i = .frameFwd fr) ∨ ∃ fr, i = .frameFwdTrunc fr)) ∨
      (s.peerValid = true ∧ ∃ fr, i = .frameDrop fr))

/-- 30_encoding.md section 6: a step runs the operation the operation map selects: what the oldest stimulus
selects, after its arrivals; where the environment gives no stimulus, a POLL whose order is a fresh draw of the
free value (logs 5, 6); what selects nothing is refused by the decoder's name for it; and a word of the opcode table
placed by `withFetchWord` runs in the very state given (log 20). -/
def Obligations.StepRunsTheSelectedOperation : Prop :=
  (∀ (s : State) (st : Stimulus) (rest : List Stimulus) (i : Instr),
    s.stimulus = st :: rest → decode s.cfg st.select = .ok i →
    step s = exec i { s with
      stimulus := rest, netIn := s.netIn ++ st.netArrivals, linkRx := s.linkRx ++ st.linkArrivals }) ∧
  (∀ s : State, s.stimulus = [] →
    step s = exec (.poll (Config.freeOrder s.drawCount)) { s with drawCount := s.drawCount + 1 }) ∧
  (∀ (s : State) (st : Stimulus) (rest : List Stimulus) (r : Reject),
    s.stimulus = st :: rest → decode s.cfg st.select = .error r → step s = .refused (.rejected r)) ∧
  (∀ (s : State) (nbits w : Nat) (i : Instr), decode s.cfg (wordSelector nbits w) = .ok i →
    step (s.withFetchWord nbits w) = exec i s)

/-- 30_encoding.md sections 1 to 3 and the opcode table: words of the table decode to their operations. That the
table's rows of 1 bit and of 18 bits are told apart as words of 8 and of 24 bits, and that a word with a bit above its
format (0x40000) is none, is the model's reading (DEDUCED, log 20); that the reserved bits of an end-of-batch word
(0x20000, 0x2FFFF) are kept as its operand is the model's choice (DEDUCED, log 23). -/
def Obligations.TableWordsDecodeToTheirOperations : Prop :=
  decodeTableWord 8 1 = some .encBit1 ∧ decodeTableWord 8 0 = some .encBit0 ∧
  decodeTableWord 24 0x0000A = some (.evShort false 10) ∧ decodeTableWord 24 0x1000A = some (.evShort true 10) ∧
  decodeTableWord 24 0x10014 = some (.evLong true 20) ∧ decodeTableWord 24 0x1000F = some (.evNoise true 15) ∧
  decodeTableWord 24 0x20000 = some (.evEob 0) ∧ decodeTableWord 24 0x2FFFF = some (.evEob 0xFFFF) ∧
  decodeTableWord 24 0x40000 = none

/-- 30_encoding.md section 6: decode and encode agree on every well-formed operation, with every operand at
every value its format admits. -/
def Obligations.DecodeOfEncodeIsTheOperation : Prop :=
  ∀ (c : Config) (i : Instr), cfgLegal c = true → i.wf c = true → decode c (encode c i) = .ok i

/-- 30_encoding.md sections 1 and 2: a beat word has one meaning: encoding what it decodes to gives the word
back, and what it decodes to is well-formed. For an end-of-batch word with reserved bits other than 0 this rests on the
model's choice to keep those bits as an operand (DEDUCED, log 23): the spec says only that the core ignores them. -/
def Obligations.BeatWordHasOneMeaning : Prop :=
  ∀ (c : Config) (w : Nat) (i : Instr), decode c (.beat w) = .ok i → encode c i = .beat w ∧ i.wf c = true

/-- 30_encoding.md sections 1 and 2: the layout of a PulseEvent word, and its fields read back as the core reads a beat. -/
def Obligations.PulseEventWordLayout : Prop :=
  ∀ (c : Config) (e : PulseEvent), e.duration < 2 ^ c.durW →
    pevWord c e < 2 ^ (c.durW + 1) ∧ durationOf c (pevWord c e) = e.duration ∧ levelOf c (pevWord c e) = e.level ∧
    eobOf c (pevWord c e) = false ∧ (pevWord c e).testBit c.durW = e.level ∧
    (∀ i, i < c.durW → (pevWord c e).testBit i = e.duration.testBit i)

/-- 42_frame.md section on R116 and 60_exceptions.md on refusals: a `LINK_RX` delivery is accepted exactly when it
is one whole batch: words of the `RXB` width, exactly one end-of-batch marker, at the end. -/
def Obligations.DeliveryAcceptedIffWholeBatch : Prop :=
  ∀ (c : Config) (words : List Nat), (∃ evs, decodeBatch c words = .ok evs) ↔ WholeBatch c words

/-! ### The encoder -/

/-- R81, R82: each operation completes, returns its two pulses and writes no state of the core. (The returned pulses
stand in the model's own field `result`, log 8.) -/
def Obligations.LineCodeTable : Prop :=
  ∀ s : State, cfgLegal s.cfg = true →
    exec .encBit1 s = .next { s with result := .pulses [⟨false, s.cfg.txShort⟩, ⟨true, s.cfg.txShort⟩] } ∧
    exec .encBit0 s = .next { s with result := .pulses [⟨true, s.cfg.txShort⟩, ⟨false, s.cfg.txShort⟩] }

/-- R80: ENCODE completes on every payload of at most `MAX_PAYLOAD` bytes, writes no state of the core, and returns
(in the model's own field `result`, log 8) 16 pulses a byte: pulses `16*i + 2*k` and `16*i + 2*k + 1` carry bit `7 - k` of byte `i`, its complement
and then itself, all of duration `TX_SHORT`. -/
def Obligations.EncodeEmitsTwoHalfBitsPerBit : Prop :=
  ∀ (s : State) (bytes : List Byte), cfgLegal s.cfg = true → bytes.length ≤ s.cfg.maxPayload →
    ∃ ps : List PulseEvent, exec (.encode bytes) s = .next { s with result := .pulses ps } ∧
      ps.length = 16 * bytes.length ∧
      ∀ (i k : Nat) (b : Byte), bytes[i]? = some b → k < 8 →
        ps[16 * i + 2 * k]? = some ⟨!b.getLsbD (7 - k), s.cfg.txShort⟩ ∧
        ps[16 * i + 2 * k + 1]? = some ⟨b.getLsbD (7 - k), s.cfg.txShort⟩

/-- 40_encoder.md, the consequences its rules on determinism and the empty input mark as derived: concatenation, the empty payload, and every emitted word a SHORT at the decoder. -/
def Obligations.EncoderConcatenatesAndEmitsShorts : Prop :=
  ∀ (c : Config) (xs ys : List Byte), cfgLegal c = true →
    encodeBytes c (xs ++ ys) = encodeBytes c xs ++ encodeBytes c ys ∧ encodeBytes c [] = [] ∧
    (encodeBytes c xs).length = 16 * xs.length ∧
    ∀ e ∈ encodeBytes c xs, e.duration = c.txShort ∧ classify c e.duration = .short

/-! ### The decoder -/

/-- R90: the classes of a duration under a legal configuration, edges inclusive. -/
def Obligations.ClassifyByInclusiveWindows : Prop :=
  ∀ (c : Config) (d : Nat), cfgLegal c = true →
    (classify c d = .short ↔ c.shortMin ≤ d ∧ d ≤ c.shortMax) ∧
    (classify c d = .long ↔ c.longMin ≤ d ∧ d ≤ c.longMax) ∧
    (classify c d = .noise ↔ ¬ (c.shortMin ≤ d ∧ d ≤ c.shortMax) ∧ ¬ (c.longMin ≤ d ∧ d ≤ c.longMax))

/-- R92: a noise event completes in every state and changes nothing; K1 is noted (in the model's own list, log 9). -/
def Obligations.NoiseEventChangesNothing : Prop :=
  ∀ (s : State) (level : Bool) (d : Nat), cfgLegal s.cfg = true → d < 2 ^ s.cfg.durW → classify s.cfg d = .noise →
    exec (.evNoise level d) s = .next { s with notes := s.notes ++ [.noise] }

/-- R95, R96: one half-bit window, completely: a first half only toggles the phase; a second half writes its level at
bit `7 - acc_bits`; the eighth bit flushes the byte to `FrameBuf[frame_len]`, or discards it where the buffer is
full. -/
def Obligations.HalfBitWindowEffect : Prop :=
  ∀ (s : State) (level : Bool), cfgLegal s.cfg = true → s.accBits ≤ 7 →
    (s.phase = false → exec (.halfBit level) s = .next { s with phase := true }) ∧
    (s.phase = true → ∃ v : Byte,
      (∀ j, v.getLsbD j = if j = 7 - s.accBits then level else s.accValue.getLsbD j) ∧
      (s.accBits < 7 →
        exec (.halfBit level) s = .next { s with phase := false, accValue := v, accBits := s.accBits + 1 }) ∧
      (s.accBits = 7 → s.frameLen < s.cfg.frameMax →
        exec (.halfBit level) s = .next { s with
          phase := false, accValue := 0#8, accBits := 0,
          frameBuf := Memory.write s.frameBuf s.frameLen v, frameLen := s.frameLen + 1 }) ∧
      (s.accBits = 7 → s.cfg.frameMax ≤ s.frameLen →
        exec (.halfBit level) s = .next { s with
          phase := false, accValue := 0#8, accBits := 0, frameTrunc := true,
          notes := s.notes ++ [.frameOverflow] }))

/-- R93: a short event is one half-bit window at its level, whatever its duration in the window. -/
def Obligations.ShortEventIsOneWindow : Prop :=
  ∀ (s : State) (level : Bool) (d : Nat), cfgLegal s.cfg = true → s.accBits ≤ 7 → d < 2 ^ s.cfg.durW →
    classify s.cfg d = .short →
    ∃ t, exec (.evShort level d) s = .next t ∧ exec (.halfBit level) s = .next t ∧ t.phase = !s.phase

/-- R94: a long event is two half-bit windows at its level; the phase ends where it started and exactly one bit is
resolved, whatever the phase. -/
def Obligations.LongEventIsTwoWindows : Prop :=
  ∀ (s : State) (level : Bool) (d : Nat), cfgLegal s.cfg = true → s.accBits ≤ 7 → d < 2 ^ s.cfg.durW →
    classify s.cfg d = .long →
    ∃ u t, exec (.halfBit level) s = .next u ∧ exec (.halfBit level) u = .next t ∧
      exec (.evLong level d) s = .next t ∧ t.phase = s.phase ∧ t.accBits = (s.accBits + 1) % 8

/-- R97, R98: BYTE_FLUSH stores the accumulator at `FrameBuf[frame_len]`, read back there, and counts it; with the
buffer full it discards the byte, sets `frame_trunc` and notes K7; the accumulator is reset either way. -/
def Obligations.ByteFlushStoresOrDiscards : Prop :=
  ∀ s : State, cfgLegal s.cfg = true → s.accBits = 8 →
    (s.frameLen < s.cfg.frameMax → ∃ m : List Host.Cell,
      exec .byteFlush s = .next { s with
        frameBuf := m, frameLen := s.frameLen + 1, accValue := 0#8, accBits := 0 } ∧
      (Memory.wf s.frameBuf = true → Memory.read m s.frameLen = s.accValue) ∧
      ∀ a, a ≠ s.frameLen → Memory.read m a = Memory.read s.frameBuf a) ∧
    (s.cfg.frameMax ≤ s.frameLen →
      exec .byteFlush s = .next { s with
        frameTrunc := true, notes := s.notes ++ [.frameOverflow], accValue := 0#8, accBits := 0 })

/-- 41_decoder.md section 4, the counting law the spec derives from its decoder rules. With `W` the half-bit windows of a batch and `h` their number: before the end of the
batch the phase is `h mod 2`, the completed bytes number `floor(h/16)` and are stored up to `FRAME_MAX`, bit `7 - k`
of byte `j` is `W[16*j + 2*k + 1]`, the truncation bit says whether there were more, `floor(h/2) mod 8` bits remain,
and they are the last ones resolved. (`Memory.wf` is the canonical form, kept by every step.) -/
def Obligations.CountingLaw : Prop :=
  ∀ (s : State) (evs : List PulseEvent), Memory.wf s.frameBuf = true →
    let W := windowsOf s.cfg evs
    let t := batchDecoded evs s
    t.phase = decide (W.length % 2 = 1) ∧
    t.frameLen = min (W.length / 16) s.cfg.frameMax ∧
    t.frameTrunc = decide (s.cfg.frameMax < W.length / 16) ∧
    t.accBits = W.length / 2 % 8 ∧
    (∀ j k, j < t.frameLen → k < 8 →
      W[16 * j + 2 * k + 1]? = some ((Memory.read t.frameBuf j).getLsbD (7 - k))) ∧
    (∀ k, k < t.accBits → W[16 * (W.length / 16) + 2 * k + 1]? = some (t.accValue.getLsbD (7 - k)))

/-- 42_frame.md R111, R112 with 41_decoder.md R101: LINK_RX completes on every batch and returns the record of the
counting law. -/
def Obligations.LinkRxReturnsTheDecodedFrame : Prop :=
  ∀ (s : State) (evs : List PulseEvent), cfgLegal s.cfg = true → Memory.wf s.frameBuf = true →
    (∀ e ∈ evs, e.duration < 2 ^ s.cfg.durW) →
    let W := windowsOf s.cfg evs
    ∃ t fr, exec (.linkRx evs) s = .next t ∧ t.result = .frame fr ∧
      fr.bytes.length = min (W.length / 16) s.cfg.frameMax ∧
      (∀ (j k : Nat) (b : Byte), fr.bytes[j]? = some b → k < 8 → W[16 * j + 2 * k + 1]? = some (b.getLsbD (7 - k))) ∧
      fr.residualBits = W.length / 2 % 8 ∧ fr.truncated = decide (s.cfg.frameMax < W.length / 16)

/-- 41_decoder.md R99, 10_state.md R35: what LINK_RX returns depends on the batch and the configuration only, never
on what an earlier batch left. -/
def Obligations.NoBatchObservesAnEarlierOne : Prop :=
  ∀ (s u : State) (evs : List PulseEvent), cfgLegal s.cfg = true → u.cfg = s.cfg →
    Memory.wf s.frameBuf = true → Memory.wf u.frameBuf = true → (∀ e ∈ evs, e.duration < 2 ^ s.cfg.durW) →
    ∃ s' u', exec (.linkRx evs) s = .next s' ∧ exec (.linkRx evs) u = .next u' ∧ s'.result = u'.result

/-- 41_decoder.md section 4, which the spec marks as derived: only the levels of second-half windows are read: batches whose windows are as many and agree at the odd
positions return the same record. -/
def Obligations.FirstHalfLevelsAreNotRead : Prop :=
  ∀ (s : State) (xs ys : List PulseEvent), cfgLegal s.cfg = true → Memory.wf s.frameBuf = true →
    (∀ e ∈ xs, e.duration < 2 ^ s.cfg.durW) → (∀ e ∈ ys, e.duration < 2 ^ s.cfg.durW) →
    (windowsOf s.cfg xs).length = (windowsOf s.cfg ys).length →
    (∀ k, (windowsOf s.cfg xs)[2 * k + 1]? = (windowsOf s.cfg ys)[2 * k + 1]?) →
    ∃ t u, exec (.linkRx xs) s = .next t ∧ exec (.linkRx ys) s = .next u ∧ t.result = u.result

/-- 95_test_vectors.md W3 with R92: a noise event anywhere in a batch does not alter what the batch decodes to. -/
def Obligations.NoiseDoesNotAlterTheFrame : Prop :=
  ∀ (s : State) (xs ys : List PulseEvent) (e : PulseEvent), cfgLegal s.cfg = true →
    (∀ x ∈ xs ++ e :: ys, x.duration < 2 ^ s.cfg.durW) → classify s.cfg e.duration = .noise →
    ∃ t u, exec (.linkRx (xs ++ e :: ys)) s = .next t ∧ exec (.linkRx (xs ++ ys)) s = .next u ∧
      t.result = u.result ∧ t.frameBuf = u.frameBuf

/-- 30_encoding.md R66, 70_reset_and_hazards.md R166: a long pulse and two adjacent short pulses of its level decode
alike, at every place of a batch. -/
def Obligations.MergedHalfBitsDecodeAlike : Prop :=
  ∀ (s : State) (xs ys : List PulseEvent) (level : Bool) (d d₁ d₂ : Nat), cfgLegal s.cfg = true →
    (∀ x ∈ xs ++ ys, x.duration < 2 ^ s.cfg.durW) →
    s.cfg.longMin ≤ d → d ≤ s.cfg.longMax →
    s.cfg.shortMin ≤ d₁ → d₁ ≤ s.cfg.shortMax → s.cfg.shortMin ≤ d₂ → d₂ ≤ s.cfg.shortMax →
    ∃ t, exec (.linkRx (xs ++ ⟨level, d⟩ :: ys)) s = .next t ∧
      exec (.linkRx (xs ++ ⟨level, d₁⟩ :: ⟨level, d₂⟩ :: ys)) s = .next t

/-- 70_reset_and_hazards.md section 3, the round-trip condition, which the spec marks as derived: a batch of the pulses ENCODE gives decodes to the bytes encoded, with no residual bits, as
many as `FRAME_MAX` holds. -/
def Obligations.DecodeOfEncodedBytesIsTheBytes : Prop :=
  ∀ (s : State) (bytes : List Byte), cfgLegal s.cfg = true → Memory.wf s.frameBuf = true →
    ∃ t, exec (.linkRx (encodeBytes s.cfg bytes)) s = .next t ∧
      t.result = .frame ⟨bytes.take s.cfg.frameMax, 0, decide (s.cfg.frameMax < bytes.length)⟩

/-! ### The frame boundary -/

/-- R112: EV_EOB completes whatever its reserved bits, returns the record of the bytes stored, discards the residue,
notes K2 and K8, and leaves the decoder at its reset values. -/
def Obligations.EndOfBatchReturnsTheRecord : Prop :=
  ∀ (s : State) (reserved : Nat), cfgLegal s.cfg = true → s.accBits ≤ 7 → reserved < 2 ^ (s.cfg.durW + 1) →
    ∃ fr, exec (.evEob reserved) s = .next { s with
        phase := false, accValue := 0#8, accBits := 0, frameLen := 0, frameTrunc := false,
        notes := s.notes ++ (if s.accBits ≠ 0 then [.truncatedFrame] else [])
          ++ (if s.frameLen = 0 then [.emptyFrame] else []),
        result := .frame fr } ∧
      fr.bytes.length = s.frameLen ∧ (∀ i, i < s.frameLen → fr.bytes[i]? = some (Memory.read s.frameBuf i)) ∧
      fr.residualBits = s.accBits ∧ fr.truncated = s.frameTrunc

/-- 60_exceptions.md section 1 (priority): a batch of 2..15 half-bit windows notes K2 and K8 at its end, one of 0 or 1
windows only K8, and before them only the K1 of its noise events. -/
def Obligations.ShortBatchNotesTruncatedAndEmpty : Prop :=
  ∀ (s : State) (evs : List PulseEvent), cfgLegal s.cfg = true → (∀ e ∈ evs, e.duration < 2 ^ s.cfg.durW) →
    (windowsOf s.cfg evs).length ≤ 15 →
    ∃ t n, exec (.linkRx evs) s = .next t ∧
      t.notes = s.notes ++ List.replicate n .noise
        ++ (if 2 ≤ (windowsOf s.cfg evs).length then [.truncatedFrame, .emptyFrame] else [.emptyFrame])

/-- 42_frame.md R116 and R111: from a decoder at rest, the beats of a batch one at a time give the same state as the
batch as one unit. -/
def Obligations.BeatByBeatIsTheWholeBatch : Prop :=
  ∀ (s : State) (evs : List PulseEvent) (reserved : Nat), cfgLegal s.cfg = true → DecoderAtRest s →
    (∀ e ∈ evs, e.duration < 2 ^ s.cfg.durW) → reserved < 2 ^ (s.cfg.durW + 1) →
    ∃ t, exec (.linkRx evs) s = .next t ∧ runOps (evs.map (eventInstr s.cfg) ++ [.evEob reserved]) s = .next t

/-- 42_frame.md (FRAME_SKIP): an empty frame is skipped: nothing is emitted, nothing changes. -/
def Obligations.EmptyFrameIsSkipped : Prop :=
  ∀ (s : State) (fr : FrameRecord), cfgLegal s.cfg = true → fr.bytes = [] → fr.residualBits ≤ 7 →
    fr.truncated = false → exec (.frameSkip fr) s = .next s

/-! ### The bridge -/

/-- R122: an accepted payload records its sender, emits its encoding on LINK_TX, then its log record. -/
def Obligations.AcceptedPayloadIsEncodedAndLogged : Prop :=
  ∀ (s : State) (m : NetMessage), cfgLegal s.cfg = true → m.sender < 2 ^ s.cfg.peerW →
    1 ≤ m.payload.length → m.payload.length ≤ s.cfg.maxPayload →
    exec (.netRx m) s = .next { s with
      peerAddr := m.sender, peerValid := true,
      out := s.out ++ [.linkTx ((encodeBytes s.cfg m.payload).map (pevWord s.cfg)),
        .logOut ⟨.netToLink, .forwarded, m.payload.length, m.payload.take s.cfg.previewLen⟩] }

/-- R124: an empty payload records its sender and emits an empty LINK_TX message, then its log record. -/
def Obligations.EmptyPayloadIsAccepted : Prop :=
  ∀ (s : State) (sender : Nat), cfgLegal s.cfg = true → sender < 2 ^ s.cfg.peerW →
    exec (.netRxEmpty sender) s = .next { s with
      peerAddr := sender, peerValid := true,
      out := s.out ++ [.linkTx [], .logOut ⟨.netToLink, .forwarded, 0, []⟩] }

/-- R123: a payload beyond `MAX_PAYLOAD` is rejected whole and logged; no peer update, no LINK_TX; K6 is noted. -/
def Obligations.OversizePayloadIsRejectedAndLogged : Prop :=
  ∀ (s : State) (m : NetMessage), cfgLegal s.cfg = true → m.sender < 2 ^ s.cfg.peerW →
    s.cfg.maxPayload < m.payload.length →
    exec (.netRxOversize m) s = .next { s with
      notes := s.notes ++ [.oversizePayload],
      out := s.out ++
        [.logOut ⟨.netToLink, .rejectedOversize, m.payload.length, m.payload.take s.cfg.previewLen⟩] }

/-- R127: a non-empty, untruncated frame with a known peer goes to it, then is logged. -/
def Obligations.FrameIsForwardedToThePeer : Prop :=
  ∀ (s : State) (fr : FrameRecord), cfgLegal s.cfg = true → 1 ≤ fr.bytes.length →
    fr.bytes.length ≤ s.cfg.frameMax → fr.residualBits ≤ 7 → fr.truncated = false → s.peerValid = true →
    exec (.frameFwd fr) s = .next { s with
      out := s.out ++ [.netOut s.peerAddr fr.bytes,
        .logOut ⟨.linkToNet, .forwarded, fr.bytes.length, fr.bytes.take s.cfg.previewLen⟩] }

/-- R129: a truncated frame with a known peer goes to it with its first `FRAME_MAX` bytes, logged as truncated. -/
def Obligations.TruncatedFrameIsForwardedAndMarked : Prop :=
  ∀ (s : State) (fr : FrameRecord), cfgLegal s.cfg = true → fr.bytes.length = s.cfg.frameMax →
    fr.residualBits ≤ 7 → fr.truncated = true → s.peerValid = true →
    exec (.frameFwdTrunc fr) s = .next { s with
      out := s.out ++ [.netOut s.peerAddr fr.bytes,
        .logOut ⟨.linkToNet, .forwardedTruncated, fr.bytes.length, fr.bytes.take s.cfg.previewLen⟩] }

/-- R128: a non-empty frame with no peer recorded is dropped and logged, truncated or not; K4 is noted. -/
def Obligations.FrameWithoutPeerIsDroppedAndLogged : Prop :=
  ∀ (s : State) (fr : FrameRecord), cfgLegal s.cfg = true → 1 ≤ fr.bytes.length →
    fr.bytes.length ≤ s.cfg.frameMax → fr.residualBits ≤ 7 →
    (fr.truncated = true → fr.bytes.length = s.cfg.frameMax) → s.peerValid = false →
    exec (.frameDrop fr) s = .next { s with
      notes := s.notes ++ [.noPeer],
      out := s.out ++
        [.logOut ⟨.linkToNet, .droppedNoPeer, fr.bytes.length, fr.bytes.take s.cfg.previewLen⟩] }

/-- 30_encoding.md section 5: the codes of a log record. -/
def Obligations.LogRecordCodes : Prop :=
  directionCode .netToLink = 0#1 ∧ directionCode .linkToNet = 1#1 ∧ outcomeCode .forwarded = 0#2 ∧
  outcomeCode .droppedNoPeer = 1#2 ∧ outcomeCode .rejectedOversize = 2#2 ∧ outcomeCode .forwardedTruncated = 3#2

/-! ### The poll iteration -/

/-- 43_bridge.md section 1: an iteration where both channels are empty changes nothing and emits nothing, for either
order. -/
def Obligations.IdleIterationChangesNothing : Prop :=
  ∀ (s : State) (ord : Order), cfgLegal s.cfg = true → s.booted = true → s.netIn = [] → s.linkRx = [] →
    exec (.poll ord) s = .next s

/-- 60_exceptions.md section 9: within the environment's duties every iteration completes; it takes at most one
message from each input channel, the oldest, and leaves the rest. -/
def Obligations.IterationCompletesWithinDuties : Prop :=
  ∀ (s : State) (ord : Order), cfgLegal s.cfg = true → s.booted = true → WithinDuties s →
    ∃ t, exec (.poll ord) s = .next t ∧ t.netIn = s.netIn.tail ∧ t.linkRx = s.linkRx.tail

/-- 60_exceptions.md section 9: a delivery that is not one whole batch, and a message whose sender is no token
(log 13), is refused by the iteration that receives it, for either order. -/
def Obligations.IterationRefusesBrokenDeliveries : Prop :=
  ∀ (s : State) (ord : Order), cfgLegal s.cfg = true → s.booted = true → ¬ WithinDuties s →
    ∃ r, exec (.poll ord) s = .refused (.rejected r)

/-- 43_bridge.md section 2: with no batch waiting, an iteration runs on the oldest message the operation its payload
length selects (R121's tests), for either order. -/
def Obligations.IterationRunsTheMessageItReceives : Prop :=
  ∀ (s : State) (ord : Order) (m : NetMessage) (rest : List NetMessage), cfgLegal s.cfg = true → s.booted = true →
    s.netIn = m :: rest → s.linkRx = [] → m.sender < 2 ^ s.cfg.peerW →
    (s.cfg.maxPayload < m.payload.length → exec (.poll ord) s = exec (.netRxOversize m) { s with netIn := rest }) ∧
    (m.payload.length = 0 → exec (.poll ord) s = exec (.netRxEmpty m.sender) { s with netIn := rest }) ∧
    (1 ≤ m.payload.length → m.payload.length ≤ s.cfg.maxPayload →
      exec (.poll ord) s = exec (.netRx m) { s with netIn := rest })

/-- 43_bridge.md section 3: with no message waiting, an iteration runs LINK_RX on the oldest batch and then the
operation its frame record selects (R126's tests), for either order. -/
def Obligations.IterationRunsTheBatchItReceives : Prop :=
  ∀ (s : State) (ord : Order) (words : List Nat) (rest : List (List Nat)) (evs : List PulseEvent),
    cfgLegal s.cfg = true → s.booted = true → s.netIn = [] → s.linkRx = words :: rest →
    decodeBatch s.cfg words = .ok evs →
    ∃ (u : State) (fr : FrameRecord), exec (.linkRx evs) { s with linkRx := rest } = .next u ∧ u.result = .frame fr ∧
      (fr.bytes.length = 0 → exec (.poll ord) s = exec (.frameSkip fr) { u with result := s.result }) ∧
      (1 ≤ fr.bytes.length → s.peerValid = false →
        exec (.poll ord) s = exec (.frameDrop fr) { u with result := s.result }) ∧
      (1 ≤ fr.bytes.length → s.peerValid = true → fr.truncated = false →
        exec (.poll ord) s = exec (.frameFwd fr) { u with result := s.result }) ∧
      (1 ≤ fr.bytes.length → s.peerValid = true → fr.truncated = true →
        exec (.poll ord) s = exec (.frameFwdTrunc fr) { u with result := s.result })

/-- 43_bridge.md sections 1 and 5: an iteration is its two directions in the drawn order, each as an
iteration in which the other channel is empty; the second sees every state write of the first, and its outputs come
after the first's. -/
def Obligations.IterationIsItsDirectionsInDrawnOrder : Prop :=
  ∀ s t : State, cfgLegal s.cfg = true → s.booted = true →
    (exec (.poll .netFirst) s = .next t ↔
      ∃ u v, exec (.poll .netFirst) { s with linkRx := [] } = .next u ∧
        exec (.poll .netFirst) { u with linkRx := s.linkRx, netIn := [] } = .next v ∧ t = { v with netIn := u.netIn }) ∧
    (exec (.poll .linkFirst) s = .next t ↔
      ∃ u v, exec (.poll .linkFirst) { s with netIn := [] } = .next u ∧
        exec (.poll .linkFirst) { u with netIn := s.netIn, linkRx := [] } = .next v ∧ t = { v with linkRx := u.linkRx })

/-- 43_bridge.md section 4, the same-iteration race, which the spec marks as derived: when one iteration accepts a payload from `B` and decodes a non-empty frame, the frame goes to `B` under
NET_FIRST; under LINK_FIRST it goes to the peer held before, or is dropped where none was. Either way `B` is the
peer afterwards. -/
def Obligations.SameIterationRace : Prop :=
  ∀ (s : State) (m : NetMessage) (msgs : List NetMessage) (words : List Nat) (rest : List (List Nat))
    (evs : List PulseEvent), cfgLegal s.cfg = true → s.booted = true → s.netIn = m :: msgs → m.sender < 2 ^ s.cfg.peerW →
    m.payload.length ≤ s.cfg.maxPayload → s.linkRx = words :: rest → decodeBatch s.cfg words = .ok evs →
    16 ≤ (windowsOf s.cfg evs).length →
    ∃ (t u : State) (p : List Byte),
      exec (.poll .netFirst) s = .next t ∧ exec (.poll .linkFirst) s = .next u ∧
      netOutsOf t.out = netOutsOf s.out ++ [(m.sender, p)] ∧
      (s.peerValid = true → netOutsOf u.out = netOutsOf s.out ++ [(s.peerAddr, p)]) ∧
      (s.peerValid = false → netOutsOf u.out = netOutsOf s.out) ∧
      1 ≤ p.length ∧ t.peerAddr = m.sender ∧ u.peerAddr = m.sender ∧ t.peerValid = true ∧ u.peerValid = true

/-- 95_test_vectors.md W5 (R122, R127, R170): a payload accepted in one iteration, its LINK_TX words received as a
batch in another, is forwarded to its sender as it was. -/
def Obligations.PayloadComesBackToItsSender : Prop :=
  ∀ (s : State) (a : Nat) (p : List Byte) (ord ord' : Order), cfgLegal s.cfg = true → s.booted = true →
    Memory.wf s.frameBuf = true → s.netIn = [⟨a, p⟩] → s.linkRx = [] → a < 2 ^ s.cfg.peerW → 1 ≤ p.length → p.length ≤ s.cfg.maxPayload → p.length ≤ s.cfg.frameMax →
    ∃ (t u : State) (ws : List Nat) (r r' : LogRecord),
      exec (.poll ord) s = .next t ∧ t.out = s.out ++ [.linkTx ws, .logOut r] ∧ ws.length = 16 * p.length ∧
      exec (.poll ord') { t with linkRx := [ws ++ [eobWord s.cfg 0]] } = .next u ∧
      u.out = t.out ++ [.netOut a p, .logOut r']

/-- 95_test_vectors.md W6 (R128, R164): with no peer recorded, a batch that completes a byte is logged as dropped and
nothing is sent. -/
def Obligations.IterationDropsFrameWithoutPeer : Prop :=
  ∀ (s : State) (ord : Order) (words : List Nat) (evs : List PulseEvent), cfgLegal s.cfg = true →
    s.booted = true → s.netIn = [] → s.linkRx = [words] → decodeBatch s.cfg words = .ok evs →
    16 ≤ (windowsOf s.cfg evs).length → s.peerValid = false →
    ∃ t r, exec (.poll ord) s = .next t ∧ t.out = s.out ++ [.logOut r] ∧ r.direction = .linkToNet ∧
      r.outcome = .droppedNoPeer ∧ r.byteCount = min ((windowsOf s.cfg evs).length / 16) s.cfg.frameMax

/-- 95_test_vectors.md W7 (R113): a batch that completes no byte emits nothing on any channel. -/
def Obligations.IterationIsSilentOnEmptyFrame : Prop :=
  ∀ (s : State) (ord : Order) (words : List Nat) (evs : List PulseEvent), cfgLegal s.cfg = true →
    s.booted = true → s.netIn = [] → s.linkRx = [words] → decodeBatch s.cfg words = .ok evs →
    (windowsOf s.cfg evs).length < 16 →
    ∃ t, exec (.poll ord) s = .next t ∧ t.out = s.out ∧ t.peerAddr = s.peerAddr ∧ t.peerValid = s.peerValid

/-! ### Frames -/

/-- 10_state.md section 2 ("written by"): the encoder's and the bridge's operations leave the decoder and its buffer,
the input channels and the configuration alone; the encoder's, the frame operations and the rejection leave the peer
alone; the encoder's and the skip emit nothing. -/
def Obligations.EncoderAndBridgeFrame : Prop :=
  ∀ (i : Instr) (s t : State), exec i s = .next t →
    ((∃ bs, i = .encode bs) ∨ i = .encBit1 ∨ i = .encBit0 ∨ (∃ m, i = .netRx m) ∨ (∃ p, i = .netRxEmpty p) ∨
      (∃ m, i = .netRxOversize m) ∨ (∃ fr, i = .frameFwd fr) ∨ (∃ fr, i = .frameFwdTrunc fr) ∨
      (∃ fr, i = .frameDrop fr) ∨ (∃ fr, i = .frameSkip fr)) →
    SameDecoder s t ∧ t.cfg = s.cfg ∧ t.netIn = s.netIn ∧ t.linkRx = s.linkRx ∧ t.stimulus = s.stimulus ∧
      t.drawCount = s.drawCount ∧ t.booted = s.booted ∧
      ((∀ m, i ≠ .netRx m) → (∀ p, i ≠ .netRxEmpty p) → t.peerAddr = s.peerAddr ∧ t.peerValid = s.peerValid) ∧
      ((∃ bs, i = .encode bs) ∨ i = .encBit1 ∨ i = .encBit0 ∨ (∃ fr, i = .frameSkip fr) → t.out = s.out) ∧
      ((∀ bs, i ≠ .encode bs) → i ≠ .encBit1 → i ≠ .encBit0 → t.result = s.result)

/-- 10_state.md section 2 and 20_memory.md section 1: the decoder's operations leave everything outside the decoder
alone, and every byte of the buffer but the one at the index stored to; noise and the end of a batch store nothing. -/
def Obligations.DecoderOperationsFrame : Prop :=
  ∀ (i : Instr) (s t : State), exec i s = .next t →
    ((∃ l d, i = .evShort l d) ∨ (∃ l d, i = .evLong l d) ∨ (∃ l d, i = .evNoise l d) ∨ (∃ r, i = .evEob r) ∨
      (∃ l, i = .halfBit l) ∨ i = .byteFlush) →
    SameOutsideDecoder s t ∧
      (∀ a, storedIndex i s ≠ some a → Memory.read t.frameBuf a = Memory.read s.frameBuf a) ∧
      ((∀ r, i ≠ .evEob r) → t.result = s.result)

/-- 42_frame.md R111, R112: LINK_RX leaves everything outside the decoder alone, the decoder at its reset values, and
every byte of the buffer at or above the bytes it stores. -/
def Obligations.LinkRxFrame : Prop :=
  ∀ (evs : List PulseEvent) (s t : State), exec (.linkRx evs) s = .next t →
    SameOutsideDecoder s t ∧ DecoderAtRest t ∧
      ∀ a, bytesStored s.cfg evs ≤ a → Memory.read t.frameBuf a = Memory.read s.frameBuf a

/-- 43_bridge.md section 1, 20_memory.md section 1: an iteration leaves the configuration alone; with no batch waiting
it leaves the decoder and its buffer alone; with a batch it leaves the decoder at its reset values and every byte of
the buffer at or above the bytes stored; with no message waiting it leaves the peer alone. -/
def Obligations.IterationFrame : Prop :=
  ∀ (ord : Order) (s t : State), exec (.poll ord) s = .next t →
    t.cfg = s.cfg ∧ t.stimulus = s.stimulus ∧ t.drawCount = s.drawCount ∧ t.booted = s.booted ∧
      t.result = s.result ∧
      (s.linkRx = [] → SameDecoder s t) ∧
      (∀ words rest evs, s.linkRx = words :: rest → decodeBatch s.cfg words = .ok evs →
        DecoderAtRest t ∧ ∀ a, bytesStored s.cfg evs ≤ a → Memory.read t.frameBuf a = Memory.read s.frameBuf a) ∧
      (s.netIn = [] → t.peerAddr = s.peerAddr ∧ t.peerValid = s.peerValid)

/-! ### Whole-machine rules and invariants -/

/-- 10_state.md R29, R30, 43_bridge.md R130: over all operations, the peer changes only when a payload of at most
`MAX_PAYLOAD` bytes is accepted, and then is its sender; only RESET clears it. -/
def Obligations.OnlyAcceptedPayloadsSetThePeer : Prop :=
  ∀ (i : Instr) (s t : State), exec i s = .next t →
    (t.peerAddr ≠ s.peerAddr ∨ (s.peerValid = false ∧ t.peerValid = true) →
      ∃ m : NetMessage, m.payload.length ≤ s.cfg.maxPayload ∧ t.peerAddr = m.sender ∧ t.peerValid = true ∧
        (i = .netRx m ∨ (i = .netRxEmpty m.sender ∧ m.payload = []) ∨ ∃ ord msgs, i = .poll ord ∧ s.netIn = m :: msgs)) ∧
    (s.peerValid = true → t.peerValid = false → i = .reset)

/-- 10_state.md R31, 20_memory.md R55: every step keeps the configuration, and only appends to what was emitted. -/
def Obligations.StepKeepsConfigurationAndOutputs : Prop :=
  ∀ s t : State, step s = .next t → t.cfg = s.cfg ∧ ∃ os, t.out = s.out ++ os

/-- 42_frame.md R114, 20_memory.md R46: one iteration sends at most one LINK_TX message and at most one NET_OUT
message, and one log record at most for each direction. -/
def Obligations.IterationSendsAtMostOneEach : Prop :=
  ∀ (ord : Order) (s t : State), exec (.poll ord) s = .next t →
    ∃ os, t.out = s.out ++ os ∧ (linkTxsOf os).length ≤ 1 ∧ (netOutsOf os).length ≤ 1 ∧
      ((logsOf os).filter (fun r => decide (r.direction = .netToLink))).length ≤ 1 ∧
      ((logsOf os).filter (fun r => decide (r.direction = .linkToNet))).length ≤ 1

/-- 43_bridge.md section 5: exactly one log record is emitted by each of the six operations, after the data message it has, and
none by any other operation but the iteration that runs them. -/
def Obligations.OneLogRecordPerLoggingOperation : Prop :=
  ∀ (i : Instr) (s t : State), exec i s = .next t → (∀ ord, i ≠ .poll ord) →
    ∃ os, t.out = s.out ++ os ∧
      (((∃ m, i = .netRx m) ∨ (∃ p, i = .netRxEmpty p) ∨ (∃ m, i = .netRxOversize m) ∨ (∃ fr, i = .frameFwd fr) ∨
          (∃ fr, i = .frameDrop fr) ∨ (∃ fr, i = .frameFwdTrunc fr)) →
        ∃ r, os.getLast? = some (.logOut r) ∧ logsOf os = [r]) ∧
      (¬ ((∃ m, i = .netRx m) ∨ (∃ p, i = .netRxEmpty p) ∨ (∃ m, i = .netRxOversize m) ∨ (∃ fr, i = .frameFwd fr) ∨
          (∃ fr, i = .frameDrop fr) ∨ (∃ fr, i = .frameFwdTrunc fr)) → os = [])

/-- The invariant holds at reset (10_state.md R22). -/
def Obligations.InvariantHoldsAtReset : Prop :=
  Inv State.reset

/-- 10_state.md R22 to R30, 30_encoding.md R61, R71: from every state that meets the invariant, a step gives one that
meets it: the fields stay in their ranges, the buffer in its canonical form, every emitted message in its format. -/
def Obligations.EveryStepKeepsTheInvariant : Prop :=
  ∀ s t : State, Inv s → step s = .next t → Inv t

/-- 10_state.md section 6, 70_reset_and_hazards.md section 1: while the environment selects only reset and ticks, the decoder holds its reset values between steps: no
batch leaves anything for the next. -/
def Obligations.DecoderRestsBetweenIterations : Prop :=
  ∀ s t : State, TransactionLevel s → DecoderAtRest s → step s = .next t → TransactionLevel t ∧ DecoderAtRest t
end

