-- ==== Sys2Proof/Laws/Memory.lean ====
section
/-! SUPPORT. The frame buffer's laws: a read after a write, and that a write keeps the canonical form. -/

namespace Sys2Proof.Machine

/-- A write leaves every other index alone. -/
theorem Memory.read_write_other (m : List Host.Cell) (i j : Nat) (v : Byte) (h : j ≠ i) :
    Memory.read (Memory.write m i v) j = Memory.read m j := by
  induction m with
  | nil => unfold Memory.write; split <;> simp [Memory.read, Ne.symm h]
  | cons cell m ih =>
    obtain ⟨a, b⟩ := cell
    unfold Memory.write
    split
    · split <;> simp [Memory.read, Ne.symm h]
    · split
      · have : ¬ a = j := by omega
        split <;> simp [Memory.read, this, Ne.symm h]
      · simp [Memory.read, ih]

/-- An index below every listed one reads as unlisted. -/
theorem Memory.read_below (m : List Host.Cell) (lo i : Nat) (hw : Memory.wfAbove lo m = true) (hi : i < lo) :
    Memory.read m i = Memory.unlisted := by
  induction m generalizing lo with
  | nil => rfl
  | cons cell m ih =>
    obtain ⟨a, b⟩ := cell
    simp only [Memory.wfAbove, Bool.and_eq_true, decide_eq_true_eq] at hw
    have ha : ¬ a = i := by omega
    simp only [Memory.read, ha, if_false]
    exact ih (a + 1) hw.2 (by omega)

theorem Memory.read_write_same_above (m : List Host.Cell) (lo i : Nat) (v : Byte)
    (hw : Memory.wfAbove lo m = true) : Memory.read (Memory.write m i v) i = v := by
  induction m generalizing lo with
  | nil =>
    unfold Memory.write
    split
    · simp_all [Memory.read]
    · simp [Memory.read]
  | cons cell m ih =>
    obtain ⟨a, b⟩ := cell
    simp only [Memory.wfAbove, Bool.and_eq_true, decide_eq_true_eq] at hw
    unfold Memory.write
    split
    · next hia =>
      split
      · next hv =>
        have ha : ¬ a = i := by omega
        simp only [Memory.read, ha, if_false]
        rw [Memory.read_below m (a + 1) i hw.2 (by omega), hv]
      · simp [Memory.read]
    · split
      · next hia =>
        split
        · next hv => rw [Memory.read_below m (a + 1) i hw.2 (by omega), hv]
        · simp [Memory.read]
      · next hn hne =>
        have ha : ¬ a = i := fun h => hne h.symm
        simp only [Memory.read, ha, if_false]
        exact ih (a + 1) hw.2

/-- A read after a write to the same index gives the value written. -/
theorem Memory.read_write_same (m : List Host.Cell) (i : Nat) (v : Byte) (hw : Memory.wf m = true) :
    Memory.read (Memory.write m i v) i = v :=
  Memory.read_write_same_above m 0 i v hw

theorem Memory.wfAbove_mono (m : List Host.Cell) (lo lo' : Nat) (h : lo' ≤ lo)
    (hw : Memory.wfAbove lo m = true) : Memory.wfAbove lo' m = true := by
  cases m with
  | nil => rfl
  | cons cell m =>
    obtain ⟨a, b⟩ := cell
    simp only [Memory.wfAbove, Bool.and_eq_true, decide_eq_true_eq] at hw ⊢
    exact ⟨⟨by omega, hw.1.2⟩, hw.2⟩

theorem Memory.write_wfAbove (m : List Host.Cell) (lo i : Nat) (v : Byte) (hi : lo ≤ i)
    (hw : Memory.wfAbove lo m = true) : Memory.wfAbove lo (Memory.write m i v) = true := by
  induction m generalizing lo with
  | nil => unfold Memory.write; split <;> simp_all [Memory.wfAbove]
  | cons cell m ih =>
    obtain ⟨a, b⟩ := cell
    have hw' := hw
    simp only [Memory.wfAbove, Bool.and_eq_true, decide_eq_true_eq] at hw
    unfold Memory.write
    split
    · next hia =>
      split
      · exact hw'
      · next hv =>
        simp only [Memory.wfAbove, Bool.and_eq_true, decide_eq_true_eq]
        exact ⟨⟨hi, hv⟩, ⟨by omega, hw.1.2⟩, hw.2⟩
    · split
      · next hia =>
        split
        · exact Memory.wfAbove_mono m (a + 1) lo (by omega) hw.2
        · next hv =>
          simp only [Memory.wfAbove, Bool.and_eq_true, decide_eq_true_eq]
          exact ⟨⟨hi, hv⟩, by rw [hia]; exact hw.2⟩
      · simp only [Memory.wfAbove, Bool.and_eq_true, decide_eq_true_eq]
        exact ⟨hw.1, ih (a + 1) (by omega) hw.2⟩

/-- A write keeps the canonical form. -/
theorem Memory.write_wf (m : List Host.Cell) (i : Nat) (v : Byte) (hw : Memory.wf m = true) :
    Memory.wf (Memory.write m i v) = true :=
  Memory.write_wfAbove m 0 i v (Nat.zero_le i) hw

/-- A write inside the buffer lists nothing outside it. -/
theorem Memory.write_inside (m : List Host.Cell) (n i : Nat) (v : Byte) (hi : i < n)
    (hm : Memory.inside n m = true) : Memory.inside n (Memory.write m i v) = true := by
  induction m with
  | nil => unfold Memory.write; split <;> simp_all [Memory.inside]
  | cons cell m ih =>
    obtain ⟨a, b⟩ := cell
    simp only [Memory.inside, List.all_cons, Bool.and_eq_true, decide_eq_true_eq] at hm ih ⊢
    unfold Memory.write
    split
    · split <;> simp [hm.1, hi, hm.2]
    · split
      · split <;> simp [hi, hm.2]
      · simp only [List.all_cons, Bool.and_eq_true, decide_eq_true_eq]
        exact ⟨hm.1, ih hm.2⟩

/-- The memory after reset is in canonical form. -/
theorem Memory.reset_wf : Memory.wf State.reset.frameBuf = true := rfl

@[simp] theorem Memory.firstBytes_length (m : List Host.Cell) (n : Nat) : (Memory.firstBytes m n).length = n := by
  simp [Memory.firstBytes]

/-- Byte `i` of the bytes read for a frame is the byte at index `i`. -/
theorem Memory.firstBytes_get (m : List Host.Cell) (n i : Nat) (h : i < n) :
    (Memory.firstBytes m n)[i]? = some (Memory.read m i) := by
  simp [Memory.firstBytes, h]

/-- Appending at the end of the bytes read. -/
theorem Memory.firstBytes_write (m : List Host.Cell) (n : Nat) (v : Byte) (hw : Memory.wf m = true) :
    Memory.firstBytes (Memory.write m n v) (n + 1) = Memory.firstBytes m n ++ [v] := by
  simp only [Memory.firstBytes, List.range_succ, List.map_append, List.map_cons, List.map_nil,
    Memory.read_write_same m n v hw]
  congr 1
  apply List.map_congr_left
  intro j hj
  exact Memory.read_write_other m n j v (by have := List.mem_range.mp hj; omega)

end Sys2Proof.Machine
end

