-- ==== Sys2Proof/Laws/Operands.lean ====
section
/-! SUPPORT. Lemmas about the pure functions of operands and configuration. -/

namespace Sys2Proof.Machine

/-- A legal configuration, as inequalities (R7, R8). -/
theorem cfgLegal_iff (c : Config) :
    cfgLegal c = true ↔ (1 ≤ c.durW ∧ c.durW ≤ 32 ∧ 1 ≤ c.peerW ∧ 0 < c.tickNs) ∧ c.shortMin ≤ c.shortMax ∧ c.longMin ≤ c.longMax ∧
      c.shortMax < c.longMin ∧ (c.shortMin ≤ c.txShort ∧ c.txShort ≤ c.shortMax) ∧ c.longMax ≤ 2 ^ c.durW - 1 ∧
      1 ≤ c.frameMax ∧ 1 ≤ c.maxPayload := by
  simp only [cfgLegal, cfgInRange, cfgOk, Bool.and_eq_true, decide_eq_true_eq]
  tauto

/-- One bit of a byte written, the others kept. -/
theorem setBit_getLsbD (v : Byte) (i j : Nat) (b : Bool) (hi : i < 8) :
    (setBit v i b).getLsbD j = if j = i then b else v.getLsbD j := by
  by_cases hj : j < 8
  · cases b <;> simp only [setBit, Bool.false_eq_true, if_false, if_true] <;>
      by_cases h : j = i
    · subst h; simp
    · simp [h, BitVec.getLsbD_one]; omega
    · subst h; simp [hj]
    · simp [h, BitVec.getLsbD_one]; omega
  · have h : ¬ j = i := by omega
    simp only [h, if_false]
    rw [BitVec.getLsbD_of_ge _ _ (by omega), BitVec.getLsbD_of_ge _ _ (by omega)]

@[simp] theorem encodeBytes_nil (c : Config) : encodeBytes c [] = [] := rfl

@[simp] theorem encodeBytes_cons (c : Config) (b : Byte) (bs : List Byte) :
    encodeBytes c (b :: bs) = encodeByte c b ++ encodeBytes c bs := rfl

@[simp] theorem windowsOf_nil (c : Config) : windowsOf c [] = [] := rfl

@[simp] theorem windowsOf_cons (c : Config) (e : PulseEvent) (es : List PulseEvent) :
    windowsOf c (e :: es) = windowsOfEvent c e ++ windowsOf c es := rfl

@[simp] theorem windowsOf_append (c : Config) (xs ys : List PulseEvent) :
    windowsOf c (xs ++ ys) = windowsOf c xs ++ windowsOf c ys := List.flatMap_append

theorem length_encodeBit (c : Config) (b : Bool) : (encodeBit c b).length = 2 := by cases b <;> rfl

/-- The 16 pulses of one byte, written out: bit 7 first, each bit as its low half and its high half (R64). -/
theorem encodeByte_eq (c : Config) (b : Byte) :
    encodeByte c b = (List.range 8).flatMap fun k =>
      [⟨!b.getLsbD (7 - k), c.txShort⟩, ⟨b.getLsbD (7 - k), c.txShort⟩] := by
  unfold encodeByte
  congr 1
  funext k
  cases b.getLsbD (7 - k) <;> rfl

theorem preview_length (c : Config) (xs : List Byte) : (preview c xs).length = min xs.length c.previewLen := by
  simp [preview, Nat.min_comm]

end Sys2Proof.Machine
end

