-- ==== Sys2Proof/Laws/State.lean ====
section
/-! SUPPORT. One lemma per field per elementary update of the state, each true by `rfl`. -/

namespace Sys2Proof.Machine

/-! ### `togglePhase` -/

@[simp] theorem togglePhase_cfg (s : State) : (togglePhase s).cfg = s.cfg := rfl
@[simp] theorem togglePhase_phase (s : State) : (togglePhase s).phase = !s.phase := rfl
@[simp] theorem togglePhase_accBits (s : State) : (togglePhase s).accBits = s.accBits := rfl
@[simp] theorem togglePhase_accValue (s : State) : (togglePhase s).accValue = s.accValue := rfl
@[simp] theorem togglePhase_frameLen (s : State) : (togglePhase s).frameLen = s.frameLen := rfl
@[simp] theorem togglePhase_frameTrunc (s : State) : (togglePhase s).frameTrunc = s.frameTrunc := rfl
@[simp] theorem togglePhase_frameBuf (s : State) : (togglePhase s).frameBuf = s.frameBuf := rfl
@[simp] theorem togglePhase_peerValid (s : State) : (togglePhase s).peerValid = s.peerValid := rfl
@[simp] theorem togglePhase_peerAddr (s : State) : (togglePhase s).peerAddr = s.peerAddr := rfl
@[simp] theorem togglePhase_netIn (s : State) : (togglePhase s).netIn = s.netIn := rfl
@[simp] theorem togglePhase_linkRx (s : State) : (togglePhase s).linkRx = s.linkRx := rfl
@[simp] theorem togglePhase_out (s : State) : (togglePhase s).out = s.out := rfl
@[simp] theorem togglePhase_stimulus (s : State) : (togglePhase s).stimulus = s.stimulus := rfl
@[simp] theorem togglePhase_drawCount (s : State) : (togglePhase s).drawCount = s.drawCount := rfl
@[simp] theorem togglePhase_result (s : State) : (togglePhase s).result = s.result := rfl
@[simp] theorem togglePhase_notes (s : State) : (togglePhase s).notes = s.notes := rfl
@[simp] theorem togglePhase_booted (s : State) : (togglePhase s).booted = s.booted := rfl

/-! ### `setFrameTrunc` -/

@[simp] theorem setFrameTrunc_cfg (s : State) : (setFrameTrunc s).cfg = s.cfg := rfl
@[simp] theorem setFrameTrunc_phase (s : State) : (setFrameTrunc s).phase = s.phase := rfl
@[simp] theorem setFrameTrunc_accBits (s : State) : (setFrameTrunc s).accBits = s.accBits := rfl
@[simp] theorem setFrameTrunc_accValue (s : State) : (setFrameTrunc s).accValue = s.accValue := rfl
@[simp] theorem setFrameTrunc_frameLen (s : State) : (setFrameTrunc s).frameLen = s.frameLen := rfl
@[simp] theorem setFrameTrunc_frameTrunc (s : State) : (setFrameTrunc s).frameTrunc = true := rfl
@[simp] theorem setFrameTrunc_frameBuf (s : State) : (setFrameTrunc s).frameBuf = s.frameBuf := rfl
@[simp] theorem setFrameTrunc_peerValid (s : State) : (setFrameTrunc s).peerValid = s.peerValid := rfl
@[simp] theorem setFrameTrunc_peerAddr (s : State) : (setFrameTrunc s).peerAddr = s.peerAddr := rfl
@[simp] theorem setFrameTrunc_netIn (s : State) : (setFrameTrunc s).netIn = s.netIn := rfl
@[simp] theorem setFrameTrunc_linkRx (s : State) : (setFrameTrunc s).linkRx = s.linkRx := rfl
@[simp] theorem setFrameTrunc_out (s : State) : (setFrameTrunc s).out = s.out := rfl
@[simp] theorem setFrameTrunc_stimulus (s : State) : (setFrameTrunc s).stimulus = s.stimulus := rfl
@[simp] theorem setFrameTrunc_drawCount (s : State) : (setFrameTrunc s).drawCount = s.drawCount := rfl
@[simp] theorem setFrameTrunc_result (s : State) : (setFrameTrunc s).result = s.result := rfl
@[simp] theorem setFrameTrunc_notes (s : State) : (setFrameTrunc s).notes = s.notes := rfl
@[simp] theorem setFrameTrunc_booted (s : State) : (setFrameTrunc s).booted = s.booted := rfl

/-! ### `recordPeer` -/

@[simp] theorem recordPeer_cfg (p : Nat) (s : State) : (recordPeer p s).cfg = s.cfg := rfl
@[simp] theorem recordPeer_phase (p : Nat) (s : State) : (recordPeer p s).phase = s.phase := rfl
@[simp] theorem recordPeer_accBits (p : Nat) (s : State) : (recordPeer p s).accBits = s.accBits := rfl
@[simp] theorem recordPeer_accValue (p : Nat) (s : State) : (recordPeer p s).accValue = s.accValue := rfl
@[simp] theorem recordPeer_frameLen (p : Nat) (s : State) : (recordPeer p s).frameLen = s.frameLen := rfl
@[simp] theorem recordPeer_frameTrunc (p : Nat) (s : State) : (recordPeer p s).frameTrunc = s.frameTrunc := rfl
@[simp] theorem recordPeer_frameBuf (p : Nat) (s : State) : (recordPeer p s).frameBuf = s.frameBuf := rfl
@[simp] theorem recordPeer_peerValid (p : Nat) (s : State) : (recordPeer p s).peerValid = true := rfl
@[simp] theorem recordPeer_peerAddr (p : Nat) (s : State) : (recordPeer p s).peerAddr = p := rfl
@[simp] theorem recordPeer_netIn (p : Nat) (s : State) : (recordPeer p s).netIn = s.netIn := rfl
@[simp] theorem recordPeer_linkRx (p : Nat) (s : State) : (recordPeer p s).linkRx = s.linkRx := rfl
@[simp] theorem recordPeer_out (p : Nat) (s : State) : (recordPeer p s).out = s.out := rfl
@[simp] theorem recordPeer_stimulus (p : Nat) (s : State) : (recordPeer p s).stimulus = s.stimulus := rfl
@[simp] theorem recordPeer_drawCount (p : Nat) (s : State) : (recordPeer p s).drawCount = s.drawCount := rfl
@[simp] theorem recordPeer_result (p : Nat) (s : State) : (recordPeer p s).result = s.result := rfl
@[simp] theorem recordPeer_notes (p : Nat) (s : State) : (recordPeer p s).notes = s.notes := rfl
@[simp] theorem recordPeer_booted (p : Nat) (s : State) : (recordPeer p s).booted = s.booted := rfl

/-! ### `note` -/

@[simp] theorem note_cfg (k : Condition) (s : State) : (note k s).cfg = s.cfg := rfl
@[simp] theorem note_phase (k : Condition) (s : State) : (note k s).phase = s.phase := rfl
@[simp] theorem note_accBits (k : Condition) (s : State) : (note k s).accBits = s.accBits := rfl
@[simp] theorem note_accValue (k : Condition) (s : State) : (note k s).accValue = s.accValue := rfl
@[simp] theorem note_frameLen (k : Condition) (s : State) : (note k s).frameLen = s.frameLen := rfl
@[simp] theorem note_frameTrunc (k : Condition) (s : State) : (note k s).frameTrunc = s.frameTrunc := rfl
@[simp] theorem note_frameBuf (k : Condition) (s : State) : (note k s).frameBuf = s.frameBuf := rfl
@[simp] theorem note_peerValid (k : Condition) (s : State) : (note k s).peerValid = s.peerValid := rfl
@[simp] theorem note_peerAddr (k : Condition) (s : State) : (note k s).peerAddr = s.peerAddr := rfl
@[simp] theorem note_netIn (k : Condition) (s : State) : (note k s).netIn = s.netIn := rfl
@[simp] theorem note_linkRx (k : Condition) (s : State) : (note k s).linkRx = s.linkRx := rfl
@[simp] theorem note_out (k : Condition) (s : State) : (note k s).out = s.out := rfl
@[simp] theorem note_stimulus (k : Condition) (s : State) : (note k s).stimulus = s.stimulus := rfl
@[simp] theorem note_drawCount (k : Condition) (s : State) : (note k s).drawCount = s.drawCount := rfl
@[simp] theorem note_result (k : Condition) (s : State) : (note k s).result = s.result := rfl
@[simp] theorem note_notes (k : Condition) (s : State) : (note k s).notes = s.notes ++ [k] := rfl
@[simp] theorem note_booted (k : Condition) (s : State) : (note k s).booted = s.booted := rfl

/-! ### `emit` -/

@[simp] theorem emit_cfg (o : Output) (s : State) : (emit o s).cfg = s.cfg := rfl
@[simp] theorem emit_phase (o : Output) (s : State) : (emit o s).phase = s.phase := rfl
@[simp] theorem emit_accBits (o : Output) (s : State) : (emit o s).accBits = s.accBits := rfl
@[simp] theorem emit_accValue (o : Output) (s : State) : (emit o s).accValue = s.accValue := rfl
@[simp] theorem emit_frameLen (o : Output) (s : State) : (emit o s).frameLen = s.frameLen := rfl
@[simp] theorem emit_frameTrunc (o : Output) (s : State) : (emit o s).frameTrunc = s.frameTrunc := rfl
@[simp] theorem emit_frameBuf (o : Output) (s : State) : (emit o s).frameBuf = s.frameBuf := rfl
@[simp] theorem emit_peerValid (o : Output) (s : State) : (emit o s).peerValid = s.peerValid := rfl
@[simp] theorem emit_peerAddr (o : Output) (s : State) : (emit o s).peerAddr = s.peerAddr := rfl
@[simp] theorem emit_netIn (o : Output) (s : State) : (emit o s).netIn = s.netIn := rfl
@[simp] theorem emit_linkRx (o : Output) (s : State) : (emit o s).linkRx = s.linkRx := rfl
@[simp] theorem emit_out (o : Output) (s : State) : (emit o s).out = s.out ++ [o] := rfl
@[simp] theorem emit_stimulus (o : Output) (s : State) : (emit o s).stimulus = s.stimulus := rfl
@[simp] theorem emit_drawCount (o : Output) (s : State) : (emit o s).drawCount = s.drawCount := rfl
@[simp] theorem emit_result (o : Output) (s : State) : (emit o s).result = s.result := rfl
@[simp] theorem emit_notes (o : Output) (s : State) : (emit o s).notes = s.notes := rfl
@[simp] theorem emit_booted (o : Output) (s : State) : (emit o s).booted = s.booted := rfl

/-! ### `clearAccumulator` -/

@[simp] theorem clearAccumulator_cfg (s : State) : (clearAccumulator s).cfg = s.cfg := rfl
@[simp] theorem clearAccumulator_phase (s : State) : (clearAccumulator s).phase = s.phase := rfl
@[simp] theorem clearAccumulator_accBits (s : State) : (clearAccumulator s).accBits = 0 := rfl
@[simp] theorem clearAccumulator_accValue (s : State) : (clearAccumulator s).accValue = 0#8 := rfl
@[simp] theorem clearAccumulator_frameLen (s : State) : (clearAccumulator s).frameLen = s.frameLen := rfl
@[simp] theorem clearAccumulator_frameTrunc (s : State) : (clearAccumulator s).frameTrunc = s.frameTrunc := rfl
@[simp] theorem clearAccumulator_frameBuf (s : State) : (clearAccumulator s).frameBuf = s.frameBuf := rfl
@[simp] theorem clearAccumulator_peerValid (s : State) : (clearAccumulator s).peerValid = s.peerValid := rfl
@[simp] theorem clearAccumulator_peerAddr (s : State) : (clearAccumulator s).peerAddr = s.peerAddr := rfl
@[simp] theorem clearAccumulator_netIn (s : State) : (clearAccumulator s).netIn = s.netIn := rfl
@[simp] theorem clearAccumulator_linkRx (s : State) : (clearAccumulator s).linkRx = s.linkRx := rfl
@[simp] theorem clearAccumulator_out (s : State) : (clearAccumulator s).out = s.out := rfl
@[simp] theorem clearAccumulator_stimulus (s : State) : (clearAccumulator s).stimulus = s.stimulus := rfl
@[simp] theorem clearAccumulator_drawCount (s : State) : (clearAccumulator s).drawCount = s.drawCount := rfl
@[simp] theorem clearAccumulator_result (s : State) : (clearAccumulator s).result = s.result := rfl
@[simp] theorem clearAccumulator_notes (s : State) : (clearAccumulator s).notes = s.notes := rfl
@[simp] theorem clearAccumulator_booted (s : State) : (clearAccumulator s).booted = s.booted := rfl

/-! ### `appendBit` -/

@[simp] theorem appendBit_cfg (b : Bool) (s : State) : (appendBit b s).cfg = s.cfg := rfl
@[simp] theorem appendBit_phase (b : Bool) (s : State) : (appendBit b s).phase = s.phase := rfl
@[simp] theorem appendBit_accBits (b : Bool) (s : State) : (appendBit b s).accBits = s.accBits + 1 := rfl
@[simp] theorem appendBit_accValue (b : Bool) (s : State) : (appendBit b s).accValue = setBit s.accValue (7 - s.accBits) b := rfl
@[simp] theorem appendBit_frameLen (b : Bool) (s : State) : (appendBit b s).frameLen = s.frameLen := rfl
@[simp] theorem appendBit_frameTrunc (b : Bool) (s : State) : (appendBit b s).frameTrunc = s.frameTrunc := rfl
@[simp] theorem appendBit_frameBuf (b : Bool) (s : State) : (appendBit b s).frameBuf = s.frameBuf := rfl
@[simp] theorem appendBit_peerValid (b : Bool) (s : State) : (appendBit b s).peerValid = s.peerValid := rfl
@[simp] theorem appendBit_peerAddr (b : Bool) (s : State) : (appendBit b s).peerAddr = s.peerAddr := rfl
@[simp] theorem appendBit_netIn (b : Bool) (s : State) : (appendBit b s).netIn = s.netIn := rfl
@[simp] theorem appendBit_linkRx (b : Bool) (s : State) : (appendBit b s).linkRx = s.linkRx := rfl
@[simp] theorem appendBit_out (b : Bool) (s : State) : (appendBit b s).out = s.out := rfl
@[simp] theorem appendBit_stimulus (b : Bool) (s : State) : (appendBit b s).stimulus = s.stimulus := rfl
@[simp] theorem appendBit_drawCount (b : Bool) (s : State) : (appendBit b s).drawCount = s.drawCount := rfl
@[simp] theorem appendBit_result (b : Bool) (s : State) : (appendBit b s).result = s.result := rfl
@[simp] theorem appendBit_notes (b : Bool) (s : State) : (appendBit b s).notes = s.notes := rfl
@[simp] theorem appendBit_booted (b : Bool) (s : State) : (appendBit b s).booted = s.booted := rfl

/-! ### `batchStart` -/

@[simp] theorem batchStart_cfg (s : State) : (batchStart s).cfg = s.cfg := rfl
@[simp] theorem batchStart_phase (s : State) : (batchStart s).phase = false := rfl
@[simp] theorem batchStart_accBits (s : State) : (batchStart s).accBits = 0 := rfl
@[simp] theorem batchStart_accValue (s : State) : (batchStart s).accValue = 0#8 := rfl
@[simp] theorem batchStart_frameLen (s : State) : (batchStart s).frameLen = 0 := rfl
@[simp] theorem batchStart_frameTrunc (s : State) : (batchStart s).frameTrunc = false := rfl
@[simp] theorem batchStart_frameBuf (s : State) : (batchStart s).frameBuf = s.frameBuf := rfl
@[simp] theorem batchStart_peerValid (s : State) : (batchStart s).peerValid = s.peerValid := rfl
@[simp] theorem batchStart_peerAddr (s : State) : (batchStart s).peerAddr = s.peerAddr := rfl
@[simp] theorem batchStart_netIn (s : State) : (batchStart s).netIn = s.netIn := rfl
@[simp] theorem batchStart_linkRx (s : State) : (batchStart s).linkRx = s.linkRx := rfl
@[simp] theorem batchStart_out (s : State) : (batchStart s).out = s.out := rfl
@[simp] theorem batchStart_stimulus (s : State) : (batchStart s).stimulus = s.stimulus := rfl
@[simp] theorem batchStart_drawCount (s : State) : (batchStart s).drawCount = s.drawCount := rfl
@[simp] theorem batchStart_result (s : State) : (batchStart s).result = s.result := rfl
@[simp] theorem batchStart_notes (s : State) : (batchStart s).notes = s.notes := rfl
@[simp] theorem batchStart_booted (s : State) : (batchStart s).booted = s.booted := rfl

/-! ### `resetCore` -/

@[simp] theorem resetCore_cfg (s : State) : (resetCore s).cfg = s.cfg := rfl
@[simp] theorem resetCore_phase (s : State) : (resetCore s).phase = false := rfl
@[simp] theorem resetCore_accBits (s : State) : (resetCore s).accBits = 0 := rfl
@[simp] theorem resetCore_accValue (s : State) : (resetCore s).accValue = 0#8 := rfl
@[simp] theorem resetCore_frameLen (s : State) : (resetCore s).frameLen = 0 := rfl
@[simp] theorem resetCore_frameTrunc (s : State) : (resetCore s).frameTrunc = false := rfl
@[simp] theorem resetCore_frameBuf (s : State) : (resetCore s).frameBuf = s.frameBuf := rfl
@[simp] theorem resetCore_peerValid (s : State) : (resetCore s).peerValid = false := rfl
@[simp] theorem resetCore_peerAddr (s : State) : (resetCore s).peerAddr = s.peerAddr := rfl
@[simp] theorem resetCore_netIn (s : State) : (resetCore s).netIn = s.netIn := rfl
@[simp] theorem resetCore_linkRx (s : State) : (resetCore s).linkRx = s.linkRx := rfl
@[simp] theorem resetCore_out (s : State) : (resetCore s).out = s.out := rfl
@[simp] theorem resetCore_stimulus (s : State) : (resetCore s).stimulus = s.stimulus := rfl
@[simp] theorem resetCore_drawCount (s : State) : (resetCore s).drawCount = s.drawCount := rfl
@[simp] theorem resetCore_result (s : State) : (resetCore s).result = s.result := rfl
@[simp] theorem resetCore_notes (s : State) : (resetCore s).notes = s.notes := rfl
@[simp] theorem resetCore_booted (s : State) : (resetCore s).booted = true := rfl

end Sys2Proof.Machine
end

