-- ==== Sys2Proof/Laws/Decoder.lean ====
section
/-! SUPPORT. What the decoder's shared operations change and keep: everything outside the decoder is the same,
and the ranges of the decoder's own fields are kept. -/

namespace Sys2Proof.Machine

theorem SameOutsideDecoder.refl (s : State) : SameOutsideDecoder s s := by constructor <;> rfl

theorem SameOutsideDecoder.trans {s t u : State} (h : SameOutsideDecoder s t) (k : SameOutsideDecoder t u) :
    SameOutsideDecoder s u := by
  constructor
  · exact k.cfg.trans h.cfg
  · exact k.peerValid.trans h.peerValid
  · exact k.peerAddr.trans h.peerAddr
  · exact k.netIn.trans h.netIn
  · exact k.linkRx.trans h.linkRx
  · exact k.out.trans h.out
  · exact k.stimulus.trans h.stimulus
  · exact k.drawCount.trans h.drawCount
  · exact k.booted.trans h.booted

theorem sameOutside_note (k : Condition) (s : State) : SameOutsideDecoder s (note k s) := by
  constructor <;> rfl

theorem sameOutside_noteIf (b : Bool) (k : Condition) (s : State) : SameOutsideDecoder s (noteIf b k s) := by
  cases b <;> constructor <;> rfl

theorem sameOutside_batchStart (s : State) : SameOutsideDecoder s (batchStart s) := by constructor <;> rfl

theorem sameOutside_byteFlush (s : State) : SameOutsideDecoder s (byteFlush s) := by
  unfold byteFlush storeByte
  split <;> constructor <;> rfl

theorem sameOutside_resolve (b : Bool) (s : State) : SameOutsideDecoder s (resolve b s) := by
  have h : SameOutsideDecoder s (appendBit b s) := by constructor <;> rfl
  unfold resolve
  split
  · exact h.trans (sameOutside_byteFlush _)
  · exact h

theorem sameOutside_halfBit (b : Bool) (s : State) : SameOutsideDecoder s (halfBit b s) := by
  have h : ∀ u : State, SameOutsideDecoder u (togglePhase u) := fun u => by constructor <;> rfl
  unfold halfBit
  split
  · exact (sameOutside_resolve b s).trans (h _)
  · exact h _

theorem sameOutside_event (s : State) (e : PulseEvent) : SameOutsideDecoder s (event s e) := by
  unfold event
  split
  · exact sameOutside_note _ s
  · exact sameOutside_halfBit _ s
  · exact (sameOutside_halfBit _ s).trans (sameOutside_halfBit _ _)

theorem sameOutside_events (evs : List PulseEvent) (s : State) : SameOutsideDecoder s (events evs s) := by
  induction evs generalizing s with
  | nil => exact SameOutsideDecoder.refl s
  | cons e evs ih => exact (sameOutside_event s e).trans (ih (event s e))

theorem sameOutside_endOfBatch (s : State) : SameOutsideDecoder s (endOfBatch s) :=
  ((sameOutside_noteIf _ _ s).trans (sameOutside_noteIf _ _ _)).trans (sameOutside_batchStart _)

theorem sameOutside_batchDecoded (evs : List PulseEvent) (s : State) :
    SameOutsideDecoder s (batchDecoded evs s) :=
  (sameOutside_batchStart s).trans (sameOutside_events evs _)

theorem sameOutside_linkRxState (evs : List PulseEvent) (s : State) :
    SameOutsideDecoder s (linkRxState evs s) :=
  (sameOutside_batchDecoded evs s).trans (sameOutside_endOfBatch _)

/-- The ranges of the decoder's registers between operations (10_state.md R24 to R27). -/
structure DecoderRange (s : State) : Prop where
  accBits : s.accBits ≤ 7
  accClear : ∀ j, j < 8 - s.accBits → s.accValue.getLsbD j = false
  frameLen : s.frameLen ≤ s.cfg.frameMax
  frameTrunc : s.frameTrunc = true → s.frameLen = s.cfg.frameMax

/-- The buffer is in canonical form and inside `FRAME_MAX` (20_memory.md R42). -/
def BufferOk (s : State) : Prop :=
  Memory.wf s.frameBuf = true ∧ Memory.inside s.cfg.frameMax s.frameBuf = true

theorem decoderRange_batchStart (s : State) : DecoderRange (batchStart s) := by
  constructor <;> simp

/-- A flush empties the accumulator and keeps the ranges. -/
theorem decoderRange_byteFlush (s : State) (hl : s.frameLen ≤ s.cfg.frameMax)
    (ht : s.frameTrunc = true → s.frameLen = s.cfg.frameMax) : DecoderRange (byteFlush s) := by
  unfold byteFlush storeByte
  split
  · next h =>
    constructor
    · simp
    · simp
    · simpa using h
    · intro h'
      have := ht h'
      omega
  · constructor
    · simp
    · simp
    · simpa [frameFull] using hl
    · intro _
      simp [frameFull]
      omega

theorem decoderRange_resolve (b : Bool) (s : State) (h : DecoderRange s) : DecoderRange (resolve b s) := by
  unfold resolve
  split
  · exact decoderRange_byteFlush _ h.frameLen h.frameTrunc
  · next hn =>
    have h7 := h.accBits
    constructor
    · simp; omega
    · intro j hj
      simp only [appendBit_accBits, appendBit_accValue] at hj ⊢
      rw [setBit_getLsbD _ _ _ _ (by omega), if_neg (by omega)]
      exact h.accClear j (by omega)
    · exact h.frameLen
    · exact h.frameTrunc

theorem decoderRange_halfBit (b : Bool) (s : State) (h : DecoderRange s) : DecoderRange (halfBit b s) := by
  have ht : ∀ u, DecoderRange u → DecoderRange (togglePhase u) := fun u hu =>
    ⟨hu.accBits, hu.accClear, hu.frameLen, hu.frameTrunc⟩
  unfold halfBit
  split
  · exact ht _ (decoderRange_resolve b s h)
  · exact ht _ h

theorem decoderRange_event (s : State) (e : PulseEvent) (h : DecoderRange s) : DecoderRange (event s e) := by
  unfold event
  split
  · exact ⟨h.accBits, h.accClear, h.frameLen, h.frameTrunc⟩
  · exact decoderRange_halfBit _ s h
  · exact decoderRange_halfBit _ _ (decoderRange_halfBit _ s h)

theorem decoderRange_events (evs : List PulseEvent) (s : State) (h : DecoderRange s) :
    DecoderRange (events evs s) := by
  induction evs generalizing s with
  | nil => exact h
  | cons e evs ih => exact ih (event s e) (decoderRange_event s e h)

theorem decoderRange_batchDecoded (evs : List PulseEvent) (s : State) : DecoderRange (batchDecoded evs s) :=
  decoderRange_events evs _ (decoderRange_batchStart s)

theorem bufferOk_byteFlush (s : State) (h : BufferOk s) : BufferOk (byteFlush s) := by
  unfold byteFlush storeByte
  split
  · next hl => exact ⟨Memory.write_wf _ _ _ h.1, Memory.write_inside _ _ _ _ hl h.2⟩
  · exact h

theorem bufferOk_halfBit (b : Bool) (s : State) (h : BufferOk s) : BufferOk (halfBit b s) := by
  have hr : BufferOk (resolve b s) := by
    unfold resolve
    split
    · exact bufferOk_byteFlush (appendBit b s) h
    · exact h
  unfold halfBit
  split
  · exact hr
  · exact h

theorem bufferOk_events (evs : List PulseEvent) (s : State) (h : BufferOk s) : BufferOk (events evs s) := by
  induction evs generalizing s with
  | nil => exact h
  | cons e evs ih =>
    refine ih (event s e) ?_
    unfold event
    split
    · exact h
    · exact bufferOk_halfBit _ s h
    · exact bufferOk_halfBit _ _ (bufferOk_halfBit _ s h)

/-- A batch's record is a `FRAMEREC` (R72). -/
theorem linkRxRecord_isFrameRecord (evs : List PulseEvent) (s : State) :
    isFrameRecord s.cfg (linkRxRecord evs s) = true := by
  have h := decoderRange_batchDecoded evs s
  have hc := (sameOutside_batchDecoded evs s).cfg
  have h1 := h.frameLen
  have h2 := h.frameTrunc
  have h3 := h.accBits
  rw [hc] at h1 h2
  simp only [isFrameRecord, linkRxRecord, frameRecordOf, Memory.firstBytes_length, Bool.and_eq_true,
    decide_eq_true_eq, Bool.or_eq_true, Bool.not_eq_true']
  refine ⟨⟨h1, decide_eq_true h3⟩, ?_⟩
  cases ht : (batchDecoded evs s).frameTrunc
  · exact .inl rfl
  · exact .inr (h2 ht)

theorem noteIf_eq (b : Bool) (k : Condition) (s : State) :
    noteIf b k s = { s with notes := if b then s.notes ++ [k] else s.notes } := by
  cases b <;> rfl

/-- `EV_EOB` leaves the decoder's reset values. -/
theorem endOfBatch_atRest (s : State) : DecoderAtRest (endOfBatch s) := ⟨rfl, rfl, rfl, rfl, rfl⟩

@[simp] theorem endOfBatch_frameBuf (s : State) : (endOfBatch s).frameBuf = s.frameBuf := by
  simp only [endOfBatch, noteIf_eq]; rfl

@[simp] theorem endOfBatch_result (s : State) : (endOfBatch s).result = s.result := by
  simp only [endOfBatch, noteIf_eq]; rfl

/-- The events of two lists in sequence. -/
theorem events_append (xs ys : List PulseEvent) (s : State) : events (xs ++ ys) s = events ys (events xs s) := by
  simp [events, List.foldl_append]

end Sys2Proof.Machine
end

