-- ==== Sys2Proof/Laws/Channels.lean ====
section
/-! SUPPORT. The two directions of an iteration use different channels: the network check neither reads nor
writes `LINK_RX`, the transport check neither reads nor writes `NET_IN` (20_memory.md R49, R51). -/

namespace Sys2Proof.Machine

/-- The state with other messages waiting on `NET_IN`. -/
def withNetIn (l : List NetMessage) (s : State) : State := { s with netIn := l }

/-- The state with other deliveries waiting on `LINK_RX`. -/
def withLinkRx (l : List (List Nat)) (s : State) : State := { s with linkRx := l }

theorem withNetIn_self (s : State) : withNetIn s.netIn s = s := rfl
theorem withLinkRx_self (s : State) : withLinkRx s.linkRx s = s := rfl
theorem withNetIn_withNetIn (l m : List NetMessage) (s : State) : withNetIn l (withNetIn m s) = withNetIn l s := rfl
theorem withLinkRx_withLinkRx (l m : List (List Nat)) (s : State) :
    withLinkRx l (withLinkRx m s) = withLinkRx l s := rfl

theorem netDispatch_withLinkRx (m : NetMessage) (l : List (List Nat)) (s : State) :
    netDispatch m (withLinkRx l s) = withLinkRx l (netDispatch m s) := by
  unfold netDispatch
  rw [apply_ite (withLinkRx l), apply_ite (withLinkRx l)]
  rfl

theorem frameDispatch_withNetIn (fr : FrameRecord) (l : List NetMessage) (s : State) :
    frameDispatch fr (withNetIn l s) = withNetIn l (frameDispatch fr s) := by
  unfold frameDispatch
  rw [apply_ite (withNetIn l), apply_ite (withNetIn l), apply_ite (withNetIn l)]
  rfl

/-- Replacing fields the decoder does not touch commutes with decoding. -/
theorem events_commute (f : State → State) (hn : ∀ k u, note k (f u) = f (note k u))
    (hh : ∀ b u, halfBit b (f u) = f (halfBit b u)) (hc : ∀ u, (f u).cfg = u.cfg)
    (evs : List PulseEvent) (s : State) : events evs (f s) = f (events evs s) := by
  induction evs generalizing s with
  | nil => rfl
  | cons e evs ih =>
    have he : event (f s) e = f (event s e) := by
      unfold event
      rw [hc]
      cases classify s.cfg e.duration
      · exact hh _ _
      · simp only [evLong, hh]
      · exact hn _ _
    show events evs (event (f s) e) = f (events evs (event s e))
    rw [he, ih]

/-- A window commutes with an update the flush and the plain field updates commute with. -/
theorem halfBit_commute (f : State → State) (hs : ∀ u, storeByte (f u) = f (storeByte u))
    (hc : ∀ u, clearAccumulator (f u) = f (clearAccumulator u)) (ha : ∀ b u, appendBit b (f u) = f (appendBit b u))
    (ht : ∀ u, togglePhase (f u) = f (togglePhase u)) (hp : ∀ u, (f u).phase = u.phase)
    (hn : ∀ u, (f u).accBits = u.accBits) (b : Bool) (s : State) : halfBit b (f s) = f (halfBit b s) := by
  have hr : resolve b (f s) = f (resolve b s) := by
    unfold resolve byteFlush
    rw [hn, ha, hs, hc, apply_ite f]
  unfold halfBit
  rw [hp, hr, ← ht, apply_ite f]

theorem storeByte_withNetIn (l : List NetMessage) (s : State) : storeByte (withNetIn l s) = withNetIn l (storeByte s) := by
  unfold storeByte
  rw [apply_ite (withNetIn l)]
  rfl

theorem halfBit_withNetIn (b : Bool) (l : List NetMessage) (s : State) :
    halfBit b (withNetIn l s) = withNetIn l (halfBit b s) :=
  halfBit_commute (withNetIn l) (storeByte_withNetIn l) (fun _ => rfl) (fun _ _ => rfl) (fun _ => rfl) (fun _ => rfl)
    (fun _ => rfl) b s

theorem storeByte_withLinkRx (l : List (List Nat)) (s : State) : storeByte (withLinkRx l s) = withLinkRx l (storeByte s) := by
  unfold storeByte
  rw [apply_ite (withLinkRx l)]
  rfl

theorem halfBit_withLinkRx (b : Bool) (l : List (List Nat)) (s : State) :
    halfBit b (withLinkRx l s) = withLinkRx l (halfBit b s) :=
  halfBit_commute (withLinkRx l) (storeByte_withLinkRx l) (fun _ => rfl) (fun _ _ => rfl) (fun _ => rfl) (fun _ => rfl)
    (fun _ => rfl) b s

theorem batchDecoded_withNetIn (evs : List PulseEvent) (l : List NetMessage) (s : State) :
    batchDecoded evs (withNetIn l s) = withNetIn l (batchDecoded evs s) :=
  events_commute (withNetIn l) (fun _ _ => rfl) (fun b u => halfBit_withNetIn b l u) (fun _ => rfl) evs
    (batchStart s)

theorem batchDecoded_withLinkRx (evs : List PulseEvent) (l : List (List Nat)) (s : State) :
    batchDecoded evs (withLinkRx l s) = withLinkRx l (batchDecoded evs s) :=
  events_commute (withLinkRx l) (fun _ _ => rfl) (fun b u => halfBit_withLinkRx b l u) (fun _ => rfl) evs
    (batchStart s)

theorem linkRxState_withNetIn (evs : List PulseEvent) (l : List NetMessage) (s : State) :
    linkRxState evs (withNetIn l s) = withNetIn l (linkRxState evs s) := by
  unfold linkRxState
  rw [batchDecoded_withNetIn]
  simp only [endOfBatch, noteIf_eq]
  rfl

/-! ### What the two checks answer -/

theorem netStep_empty {s : State} (h : s.netIn = []) : netStep s = .next s := by
  simp only [netStep, h]

theorem netStep_message {s : State} {m : NetMessage} {rest : List NetMessage} (h : s.netIn = m :: rest)
    (hp : fitsPeer s.cfg m.sender = true) : netStep s = .next (netDispatch m (withNetIn rest s)) := by
  simp only [netStep, h, hp, if_true]
  rfl

theorem netStep_noToken {s : State} {m : NetMessage} {rest : List NetMessage} (h : s.netIn = m :: rest)
    (hp : fitsPeer s.cfg m.sender = false) : netStep s = .refused (.rejected .senderTooWide) := by
  simp [netStep, h, hp]

theorem linkStep_empty {s : State} (h : s.linkRx = []) : linkStep s = .next s := by
  simp only [linkStep, h]

theorem linkStep_batch {s : State} {words : List Nat} {rest : List (List Nat)} {evs : List PulseEvent}
    (h : s.linkRx = words :: rest) (hd : decodeBatch s.cfg words = .ok evs) :
    linkStep s = .next (frameDispatch (linkRxRecord evs s) (linkRxState evs (withLinkRx rest s))) := by
  simp only [linkStep, h, hd]
  rfl

theorem linkStep_broken {s : State} {words : List Nat} {rest : List (List Nat)} {r : Reject}
    (h : s.linkRx = words :: rest) (hd : decodeBatch s.cfg words = .error r) :
    linkStep s = .refused (.rejected r) := by
  simp only [linkStep, h, hd]

/-- The network check commutes with replacing what waits on `LINK_RX`. -/
theorem netStep_withLinkRx (l : List (List Nat)) (s : State) :
    netStep (withLinkRx l s) = andThen (netStep s) fun t => .next (withLinkRx l t) := by
  cases hn : s.netIn with
  | nil => rw [netStep_empty hn, netStep_empty (s := withLinkRx l s) hn]; rfl
  | cons m rest =>
    cases hp : fitsPeer s.cfg m.sender
    · rw [netStep_noToken hn hp, netStep_noToken (s := withLinkRx l s) hn hp]; rfl
    · rw [netStep_message hn hp, netStep_message (s := withLinkRx l s) hn hp]
      exact congrArg Host.Outcome.next (netDispatch_withLinkRx m l (withNetIn rest s))

/-- The transport check commutes with replacing what waits on `NET_IN`. -/
theorem linkStep_withNetIn (l : List NetMessage) (s : State) :
    linkStep (withNetIn l s) = andThen (linkStep s) fun t => .next (withNetIn l t) := by
  cases hn : s.linkRx with
  | nil => rw [linkStep_empty hn, linkStep_empty (s := withNetIn l s) hn]; rfl
  | cons words rest =>
    cases hd : decodeBatch s.cfg words with
    | error r => rw [linkStep_broken hn hd, linkStep_broken (s := withNetIn l s) hn hd]; rfl
    | ok evs =>
      have h1 : linkRxRecord evs (withNetIn l s) = linkRxRecord evs s := by
        unfold linkRxRecord
        rw [batchDecoded_withNetIn]
        rfl
      have h2 : linkRxState evs (withLinkRx rest (withNetIn l s)) =
          withNetIn l (linkRxState evs (withLinkRx rest s)) := linkRxState_withNetIn evs l (withLinkRx rest s)
      rw [linkStep_batch hn hd, linkStep_batch (s := withNetIn l s) hn hd, h1, h2, frameDispatch_withNetIn]
      rfl

end Sys2Proof.Machine
end

