-- ==== Sys2Proof/Laws/Windows.lean ====
section
/-! SUPPORT. The decoder's state as a count of the half-bit windows it has taken since the batch began
(41_decoder.md R101), kept window by window. -/

namespace Sys2Proof.Machine

/-- The decoder has taken the windows `W`, in this order, since its batch began. -/
structure Counted (c : Config) (W : List Bool) (t : State) : Prop where
  cfg : t.cfg = c
  wf : Memory.wf t.frameBuf = true
  phase : t.phase = decide (W.length % 2 = 1)
  frameLen : t.frameLen = min (W.length / 16) c.frameMax
  frameTrunc : t.frameTrunc = decide (c.frameMax < W.length / 16)
  accBits : t.accBits = W.length / 2 % 8
  bytes : ∀ j k, j < t.frameLen → k < 8 →
    W[16 * j + 2 * k + 1]? = some ((Memory.read t.frameBuf j).getLsbD (7 - k))
  acc : ∀ k, k < t.accBits → W[16 * (W.length / 16) + 2 * k + 1]? = some (t.accValue.getLsbD (7 - k))

theorem counted_batchStart (s : State) (hw : Memory.wf s.frameBuf = true) : Counted s.cfg [] (batchStart s) := by
  constructor <;> simp [hw]

/-- A noted condition is no part of the count. -/
theorem Counted.note {c : Config} {W : List Bool} {t : State} (h : Counted c W t) (k : Condition) :
    Counted c W (note k t) :=
  ⟨h.cfg, h.wf, h.phase, h.frameLen, h.frameTrunc, h.accBits, h.bytes, h.acc⟩

theorem getElem?_append_some {α : Type} {xs ys : List α} {i : Nat} {a : α} (h : xs[i]? = some a) :
    (xs ++ ys)[i]? = some a := by
  have hi : i < xs.length := by
    rcases Nat.lt_or_ge i xs.length with hi | hi
    · exact hi
    · rw [List.getElem?_eq_none hi] at h; cases h
  rw [List.getElem?_append_left hi, h]

/-- The bit written is the one read at its place. -/
theorem getLsbD_setBit_back (v : Byte) (n k : Nat) (b : Bool) (hn : n ≤ 7) (hk : k < n) :
    (setBit v (7 - n) b).getLsbD (7 - k) = v.getLsbD (7 - k) := by
  rw [setBit_getLsbD _ _ _ _ (by omega), if_neg (by omega)]

/-- One more half-bit window (R95). -/
theorem Counted.halfBit {c : Config} {W : List Bool} {t : State} (h : Counted c W t) (l : Bool) :
    Counted c (W ++ [l]) (halfBit l t) := by
  obtain ⟨hc, hw, hp, hf, ht, ha, hb, hv⟩ := h
  have hlen : (W ++ [l]).length = W.length + 1 := by simp
  rcases Nat.mod_two_eq_zero_or_one W.length with h2 | h2
  · -- a first half: only the phase changes
    have hph : t.phase = false := by simp [hp, h2]
    have e : Machine.halfBit l t = togglePhase t := by simp [Machine.halfBit, hph]
    have h16 : (W.length + 1) / 16 = W.length / 16 := by omega
    rw [e]
    constructor
    · exact hc
    · exact hw
    · simp [hph]; omega
    · rw [hlen, h16]; exact hf
    · rw [hlen, h16]; exact ht
    · rw [hlen, togglePhase_accBits, ha]; omega
    · intro j k hj hk
      exact getElem?_append_some (hb j k hj hk)
    · intro k hk
      rw [hlen, h16]
      exact getElem?_append_some (hv k hk)
  · -- a second half: one bit is resolved
    have hph : t.phase = true := by simp [hp, h2]
    by_cases h8 : t.accBits + 1 = 8
    · -- the eighth bit: a flush
      have e : Machine.halfBit l t = togglePhase (byteFlush (appendBit l t)) := by
        simp [Machine.halfBit, hph, resolve, h8]
      have hq : (W.length + 1) / 16 = W.length / 16 + 1 := by omega
      have hacc : ∀ k, k < 8 → (W ++ [l])[16 * (W.length / 16) + 2 * k + 1]? =
          some ((setBit t.accValue (7 - t.accBits) l).getLsbD (7 - k)) := by
        intro k hk
        by_cases hk7 : k = 7
        · subst hk7
          have hi : 16 * (W.length / 16) + 2 * 7 + 1 = W.length := by omega
          have h7 : t.accBits = 7 := by omega
          rw [hi, setBit_getLsbD _ _ _ _ (by omega), h7]
          simp
        · rw [getLsbD_setBit_back _ _ _ _ (by omega) (by omega)]
          exact getElem?_append_some (hv k (by omega))
      rw [e]
      by_cases hroom : t.frameLen < c.frameMax
      · have hfl : t.frameLen = W.length / 16 := by omega
        have e2 : byteFlush (appendBit l t) = { t with
            accValue := 0#8, accBits := 0, frameLen := t.frameLen + 1,
            frameBuf := Memory.write t.frameBuf t.frameLen (setBit t.accValue (7 - t.accBits) l) } := by
          simp [byteFlush, storeByte, appendBit, clearAccumulator, hc, hroom]
        rw [e2]
        constructor
        · exact hc
        · exact Memory.write_wf _ _ _ hw
        · simp [hph]; omega
        · simp [hq]; omega
        · simp only [togglePhase_frameTrunc, ht, hlen, hq, decide_eq_decide]; omega
        · simp; omega
        · intro j k hj hk
          simp only [togglePhase_frameBuf, togglePhase_frameLen] at hj ⊢
          by_cases hj2 : j = t.frameLen
          · rw [hj2, Memory.read_write_same _ _ _ hw, hfl]
            exact hacc k hk
          · rw [Memory.read_write_other _ _ _ _ hj2]
            exact getElem?_append_some (hb j k (by omega) hk)
        · intro k hk
          simp at hk
      · have e2 : byteFlush (appendBit l t) = { t with
            accValue := 0#8, accBits := 0, frameTrunc := true, notes := t.notes ++ [.frameOverflow] } := by
          simp [byteFlush, storeByte, appendBit, clearAccumulator, frameFull, Machine.note, setFrameTrunc, hc, hroom]
        rw [e2]
        constructor
        · exact hc
        · exact hw
        · simp [hph]; omega
        · simp [hq]; omega
        · simp [hq]; omega
        · simp; omega
        · intro j k hj hk
          exact getElem?_append_some (hb j k hj hk)
        · intro k hk
          simp at hk
    · -- a bit within the byte
      have e : Machine.halfBit l t = togglePhase (appendBit l t) := by
        simp [Machine.halfBit, hph, resolve, h8]
      have h16 : (W.length + 1) / 16 = W.length / 16 := by omega
      rw [e]
      constructor
      · exact hc
      · exact hw
      · simp [hph]; omega
      · rw [hlen, h16]; exact hf
      · rw [hlen, h16]; exact ht
      · simp only [togglePhase_accBits, appendBit_accBits, hlen]; omega
      · intro j k hj hk
        exact getElem?_append_some (hb j k hj hk)
      · intro k hk
        simp only [togglePhase_accBits, appendBit_accBits, togglePhase_accValue, appendBit_accValue] at hk ⊢
        rw [hlen, h16]
        by_cases hkl : k = t.accBits
        · subst hkl
          have hi : 16 * (W.length / 16) + 2 * t.accBits + 1 = W.length := by omega
          rw [hi, setBit_getLsbD _ _ _ _ (by omega)]
          simp
        · rw [getLsbD_setBit_back _ _ _ _ (by omega) (by omega)]
          exact getElem?_append_some (hv k (by omega))

/-- One more event: the windows it stands for. -/
theorem Counted.event {c : Config} {W : List Bool} {t : State} (h : Counted c W t) (e : PulseEvent) :
    Counted c (W ++ windowsOfEvent c e) (event t e) := by
  unfold Machine.event windowsOfEvent
  rw [h.cfg]
  cases classify c e.duration
  · exact h.halfBit e.level
  · have := (h.halfBit e.level).halfBit e.level
    rwa [List.append_assoc] at this
  · simpa [evNoise] using h.note .noise

/-- A list of events: the windows of the list. -/
theorem Counted.events {c : Config} {W : List Bool} {t : State} (h : Counted c W t) (evs : List PulseEvent) :
    Counted c (W ++ windowsOf c evs) (events evs t) := by
  induction evs generalizing W t with
  | nil => simpa [Machine.events] using h
  | cons e evs ih =>
    have := ih (h.event e)
    rwa [List.append_assoc, ← windowsOf_cons] at this

end Sys2Proof.Machine
end

