-- ==== Sys2Proof/Laws/Records.lean ====
section
/-! SUPPORT. What a batch's frame record depends on, and how long it is: the decoder reads nothing outside itself,
and the lengths follow from the number of half-bit windows alone (41_decoder.md R99, R101). -/

namespace Sys2Proof.Machine

/-- Two states with the same configuration and the same decoder. -/
structure DecoderEq (s t : State) : Prop where
  cfg : s.cfg = t.cfg
  phase : s.phase = t.phase
  accBits : s.accBits = t.accBits
  accValue : s.accValue = t.accValue
  frameLen : s.frameLen = t.frameLen
  frameTrunc : s.frameTrunc = t.frameTrunc
  frameBuf : s.frameBuf = t.frameBuf

theorem DecoderEq.halfBit {s t : State} (h : DecoderEq s t) (b : Bool) :
    DecoderEq (Machine.halfBit b s) (Machine.halfBit b t) := by
  have hs : DecoderEq (byteFlush (appendBit b s)) (byteFlush (appendBit b t)) := by
    have e : ∀ u : State, byteFlush (appendBit b u) = if u.frameLen < u.cfg.frameMax then
        clearAccumulator { appendBit b u with
          frameBuf := Memory.write u.frameBuf u.frameLen (setBit u.accValue (7 - u.accBits) b),
          frameLen := u.frameLen + 1 }
        else clearAccumulator (frameFull (appendBit b u)) := fun u => by
      unfold byteFlush storeByte
      exact apply_ite clearAccumulator _ _ _
    rw [e s, e t, h.frameLen, h.cfg]
    split <;> constructor <;>
      simp [frameFull, note, h.cfg, h.phase, h.accBits, h.accValue, h.frameLen, h.frameTrunc, h.frameBuf]
  have hr : DecoderEq (resolve b s) (resolve b t) := by
    unfold resolve
    rw [h.accBits]
    split
    · exact hs
    · constructor <;> simp [h.cfg, h.phase, h.accBits, h.accValue, h.frameLen, h.frameTrunc, h.frameBuf]
  have ht : ∀ {u v : State}, DecoderEq u v → DecoderEq (togglePhase u) (togglePhase v) := fun k => by
    constructor <;> simp [k.cfg, k.phase, k.accBits, k.accValue, k.frameLen, k.frameTrunc, k.frameBuf]
  unfold Machine.halfBit
  rw [h.phase]
  split
  · exact ht hr
  · exact ht h

theorem DecoderEq.event {s t : State} (h : DecoderEq s t) (e : PulseEvent) :
    DecoderEq (Machine.event s e) (Machine.event t e) := by
  unfold Machine.event
  rw [h.cfg]
  split
  · exact ⟨h.cfg, h.phase, h.accBits, h.accValue, h.frameLen, h.frameTrunc, h.frameBuf⟩
  · exact h.halfBit _
  · exact (h.halfBit _).halfBit _

theorem DecoderEq.events {s t : State} (h : DecoderEq s t) (evs : List PulseEvent) :
    DecoderEq (Machine.events evs s) (Machine.events evs t) := by
  induction evs generalizing s t with
  | nil => exact h
  | cons e evs ih => exact ih (h.event e)

/-- A batch's record depends on the batch, the configuration and what the buffer holds, on nothing else. -/
theorem linkRxRecord_congr (evs : List PulseEvent) {s t : State} (hc : s.cfg = t.cfg)
    (hb : s.frameBuf = t.frameBuf) : linkRxRecord evs s = linkRxRecord evs t := by
  have h : DecoderEq (batchStart s) (batchStart t) := by constructor <;> simp [hc, hb]
  have k := h.events evs
  simp only [linkRxRecord, frameRecordOf, batchDecoded, k.accBits, k.frameLen, k.frameTrunc, k.frameBuf]

/-- `LINK_RX` returns what `DECODE` gives (41_decoder.md R99, 42_frame.md R111). -/
theorem linkRxRecord_eq_decode (evs : List PulseEvent) (s : State) :
    linkRxRecord evs s =
      ⟨(decodeEvents evs s).1, (decodeEvents evs s).2.1, (decodeEvents evs s).2.2⟩ := rfl

/-- What a batch leaves in the buffer depends on the batch, the configuration and what the buffer held. -/
theorem linkRxState_frameBuf_congr (evs : List PulseEvent) {s t : State} (hc : s.cfg = t.cfg)
    (hb : s.frameBuf = t.frameBuf) : (linkRxState evs s).frameBuf = (linkRxState evs t).frameBuf := by
  have h : DecoderEq (batchStart s) (batchStart t) := by constructor <;> simp [hc, hb]
  simpa [linkRxState, batchDecoded] using (h.events evs).frameBuf

/-- The decoder has taken `n` half-bit windows since its batch began: its lengths. -/
structure Paced (c : Config) (n : Nat) (t : State) : Prop where
  cfg : t.cfg = c
  phase : t.phase = decide (n % 2 = 1)
  frameLen : t.frameLen = min (n / 16) c.frameMax
  frameTrunc : t.frameTrunc = decide (c.frameMax < n / 16)
  accBits : t.accBits = n / 2 % 8

theorem Paced.halfBit {c : Config} {n : Nat} {t : State} (h : Paced c n t) (b : Bool) :
    Paced c (n + 1) (Machine.halfBit b t) := by
  obtain ⟨hc, hp, hl, ht, ha⟩ := h
  rcases Nat.mod_two_eq_zero_or_one n with h2 | h2
  · have hph : t.phase = false := by simp [hp, h2]
    have e : Machine.halfBit b t = togglePhase t := by simp [Machine.halfBit, hph]
    have hq : (n + 1) / 16 = n / 16 := by omega
    rw [e]
    exact ⟨hc, by simp [hph]; omega, by rw [hq]; exact hl, by rw [hq]; exact ht,
      by rw [togglePhase_accBits, ha]; omega⟩
  · have hph : t.phase = true := by simp [hp, h2]
    by_cases h8 : t.accBits + 1 = 8
    · have e : Machine.halfBit b t = togglePhase (byteFlush (appendBit b t)) := by
        simp [Machine.halfBit, hph, resolve, h8]
      have hq : (n + 1) / 16 = n / 16 + 1 := by omega
      rw [e]
      by_cases hroom : t.frameLen < c.frameMax
      · have e2 : byteFlush (appendBit b t) = { t with
            accValue := 0#8, accBits := 0, frameLen := t.frameLen + 1,
            frameBuf := Memory.write t.frameBuf t.frameLen (setBit t.accValue (7 - t.accBits) b) } := by
          simp [byteFlush, storeByte, appendBit, clearAccumulator, hc, hroom]
        rw [e2]
        refine ⟨hc, by simp [hph]; omega, by simp; omega, ?_, by simp; omega⟩
        simp only [togglePhase_frameTrunc, ht, hq, decide_eq_decide]
        omega
      · have e2 : byteFlush (appendBit b t) = { t with
            accValue := 0#8, accBits := 0, frameTrunc := true, notes := t.notes ++ [.frameOverflow] } := by
          simp [byteFlush, storeByte, appendBit, clearAccumulator, frameFull, note, setFrameTrunc, hc, hroom]
        rw [e2]
        exact ⟨hc, by simp [hph]; omega, by simp; omega, by simp; omega, by simp; omega⟩
    · have e : Machine.halfBit b t = togglePhase (appendBit b t) := by
        simp [Machine.halfBit, hph, resolve, h8]
      have hq : (n + 1) / 16 = n / 16 := by omega
      rw [e]
      exact ⟨hc, by simp [hph]; omega, by rw [hq]; exact hl, by rw [hq]; exact ht, by simp; omega⟩

theorem Paced.events {c : Config} {n : Nat} {t : State} (h : Paced c n t) (evs : List PulseEvent) :
    Paced c (n + (windowsOf c evs).length) (Machine.events evs t) := by
  induction evs generalizing n t with
  | nil => simpa [Machine.events] using h
  | cons e evs ih =>
    have h1 : Paced c (n + (windowsOfEvent c e).length) (Machine.event t e) := by
      unfold Machine.event windowsOfEvent
      rw [h.cfg]
      cases classify c e.duration
      · exact h.halfBit _
      · exact (h.halfBit _).halfBit _
      · exact ⟨h.cfg, h.phase, h.frameLen, h.frameTrunc, h.accBits⟩
    rw [windowsOf_cons, List.length_append, ← Nat.add_assoc]
    exact ih h1

/-- A whole batch, from its start. -/
theorem paced_batchDecoded (evs : List PulseEvent) (s : State) :
    Paced s.cfg (windowsOf s.cfg evs).length (batchDecoded evs s) := by
  have h0 : Paced s.cfg 0 (batchStart s) := ⟨rfl, rfl, by simp, by simp, rfl⟩
  have h := h0.events evs
  rwa [Nat.zero_add] at h

end Sys2Proof.Machine
end

