-- ==== Sys2Proof/Laws/Bridge.lean ====
section
/-! SUPPORT. What the bridge's operations and the two checks of an iteration can do, said once: what they emit,
what they do to the peer, what they keep (43_bridge.md R121 to R134). -/

namespace Sys2Proof.Machine

/-- What the bridge's operations never write (10_state.md R22): all but the peer, the outputs and the notes. -/
structure BridgeKept (s t : State) : Prop where
  cfg : t.cfg = s.cfg
  phase : t.phase = s.phase
  accBits : t.accBits = s.accBits
  accValue : t.accValue = s.accValue
  frameLen : t.frameLen = s.frameLen
  frameTrunc : t.frameTrunc = s.frameTrunc
  frameBuf : t.frameBuf = s.frameBuf
  netIn : t.netIn = s.netIn
  linkRx : t.linkRx = s.linkRx
  stimulus : t.stimulus = s.stimulus
  drawCount : t.drawCount = s.drawCount
  result : t.result = s.result
  booted : t.booted = s.booted

theorem netDispatch_kept (m : NetMessage) (s : State) : BridgeKept s (netDispatch m s) := by
  unfold netDispatch
  split
  · constructor <;> rfl
  · split <;> constructor <;> rfl

theorem frameDispatch_kept (fr : FrameRecord) (s : State) : BridgeKept s (frameDispatch fr s) := by
  unfold frameDispatch
  split
  · constructor <;> rfl
  · split
    · constructor <;> rfl
    · split <;> constructor <;> rfl

/-- No frame operation writes the peer (R130). -/
theorem frameDispatch_peer (fr : FrameRecord) (s : State) :
    (frameDispatch fr s).peerAddr = s.peerAddr ∧ (frameDispatch fr s).peerValid = s.peerValid := by
  unfold frameDispatch
  split
  · exact ⟨rfl, rfl⟩
  · split
    · exact ⟨rfl, rfl⟩
    · split <;> exact ⟨rfl, rfl⟩

/-- An accepted payload makes its sender the peer (R122, R124). -/
theorem netDispatch_peer (m : NetMessage) (s : State) (h : m.payload.length ≤ s.cfg.maxPayload) :
    (netDispatch m s).peerAddr = m.sender ∧ (netDispatch m s).peerValid = true := by
  unfold netDispatch
  rw [if_neg (by omega)]
  split <;> exact ⟨rfl, rfl⟩

/-- A rejected payload leaves the peer (R123). -/
theorem netDispatch_peer_oversize (m : NetMessage) (s : State) (h : s.cfg.maxPayload < m.payload.length) :
    (netDispatch m s).peerAddr = s.peerAddr ∧ (netDispatch m s).peerValid = s.peerValid := by
  unfold netDispatch
  rw [if_pos h]
  exact ⟨rfl, rfl⟩

/-- What a message makes the bridge emit (R122, R123, R124). -/
def netOutputs (c : Config) (m : NetMessage) : List Output :=
  if c.maxPayload < m.payload.length then
    [.logOut ⟨.netToLink, .rejectedOversize, m.payload.length, preview c m.payload⟩]
  else
    [.linkTx (txWords c m.payload), .logOut ⟨.netToLink, .forwarded, m.payload.length, preview c m.payload⟩]

theorem netDispatch_out (m : NetMessage) (s : State) :
    (netDispatch m s).out = s.out ++ netOutputs s.cfg m := by
  unfold netDispatch netOutputs
  split
  · rfl
  · split
    · next h =>
      have hp : m.payload = [] := List.length_eq_zero_iff.1 h
      simp [netRxEmpty, hp, emitLog, txWords, preview]
    · simp [netRx, emitLog]

/-- What a frame record makes the bridge emit (R113, R127, R128, R129). -/
def frameOutputs (fr : FrameRecord) (s : State) : List Output :=
  if fr.bytes.length = 0 then []
  else if s.peerValid = false then
    [.logOut ⟨.linkToNet, .droppedNoPeer, fr.bytes.length, preview s.cfg fr.bytes⟩]
  else
    [.netOut s.peerAddr fr.bytes, .logOut ⟨.linkToNet,
      if fr.truncated then .forwardedTruncated else .forwarded, fr.bytes.length, preview s.cfg fr.bytes⟩]

theorem frameDispatch_out (fr : FrameRecord) (s : State) :
    (frameDispatch fr s).out = s.out ++ frameOutputs fr s := by
  unfold frameDispatch frameOutputs
  split
  · simp [frameSkip]
  · split
    · rfl
    · cases h : fr.truncated <;> simp [frameFwd, frameFwdTrunc, forward, emitLog]

/-- Everything the network check can answer as a next state. -/
theorem netStep_cases {s t : State} (h : netStep s = .next t) :
    (s.netIn = [] ∧ t = s) ∨
      ∃ m rest, s.netIn = m :: rest ∧ fitsPeer s.cfg m.sender = true ∧ t = netDispatch m (withNetIn rest s) := by
  cases hn : s.netIn with
  | nil =>
    rw [netStep_empty hn] at h
    cases h
    exact .inl ⟨rfl, rfl⟩
  | cons m rest =>
    cases hp : fitsPeer s.cfg m.sender
    · rw [netStep_noToken hn hp] at h
      cases h
    · rw [netStep_message hn hp] at h
      cases h
      exact .inr ⟨m, rest, rfl, hp, rfl⟩

/-- Everything the transport check can answer as a next state. -/
theorem linkStep_cases {s t : State} (h : linkStep s = .next t) :
    (s.linkRx = [] ∧ t = s) ∨
      ∃ words rest evs, s.linkRx = words :: rest ∧ decodeBatch s.cfg words = .ok evs ∧
        t = frameDispatch (linkRxRecord evs s) (linkRxState evs (withLinkRx rest s)) := by
  cases hn : s.linkRx with
  | nil =>
    rw [linkStep_empty hn] at h
    cases h
    exact .inl ⟨rfl, rfl⟩
  | cons words rest =>
    cases hd : decodeBatch s.cfg words with
    | error r =>
      rw [linkStep_broken hn hd] at h
      cases h
    | ok evs =>
      rw [linkStep_batch hn hd] at h
      cases h
      exact .inr ⟨words, rest, evs, rfl, hd, rfl⟩

end Sys2Proof.Machine
end

