-- ==== Sys2Proof/Laws/Encoding.lean ====
section
/-! SUPPORT. The fields of the words the encoder writes, read back (30_encoding.md R61 to R63). -/

namespace Sys2Proof

open Machine

theorem pevWord_lt (c : Config) (e : PulseEvent) (h : e.duration < 2 ^ c.durW) : pevWord c e < 2 ^ (c.durW + 1) := by
  unfold pevWord
  rw [pow_succ]
  generalize 2 ^ c.durW = P at *
  cases e.level <;> simp <;> omega

theorem durationOf_pevWord (c : Config) (e : PulseEvent) (h : e.duration < 2 ^ c.durW) :
    durationOf c (pevWord c e) = e.duration := by
  unfold durationOf fieldOf pevWord
  simp [Nat.mod_eq_of_lt h]

theorem levelOf_pevWord (c : Config) (e : PulseEvent) (h : e.duration < 2 ^ c.durW) :
    levelOf c (pevWord c e) = e.level := by
  unfold levelOf fieldOf pevWord
  have hq : (e.level.toNat * 2 ^ c.durW + e.duration) / 2 ^ c.durW = e.level.toNat := by
    rw [Nat.add_comm, Nat.add_mul_div_right _ _ (Nat.two_pow_pos _), Nat.div_eq_of_lt h, Nat.zero_add]
  rw [hq]
  cases e.level <;> rfl

theorem eobOf_pevWord (c : Config) (e : PulseEvent) (h : e.duration < 2 ^ c.durW) :
    eobOf c (pevWord c e) = false := by
  unfold eobOf fieldOf
  rw [Nat.div_eq_of_lt (pevWord_lt c e h)]
  rfl

theorem fitsBeat_pevWord (c : Config) (e : PulseEvent) (h : e.duration < 2 ^ c.durW) :
    fitsBeat c (pevWord c e) = true := by
  have h1 := pevWord_lt c e h
  have h2 : 2 ^ (c.durW + 1) < 2 ^ (c.durW + 2) := Nat.pow_lt_pow_right (by omega) (by omega)
  exact decide_eq_true (Nat.lt_trans h1 h2)

theorem eventOf_pevWord (c : Config) (e : PulseEvent) (h : e.duration < 2 ^ c.durW) :
    eventOf c (pevWord c e) = e := by
  simp only [eventOf, durationOf_pevWord c e h, levelOf_pevWord c e h]

theorem fitsBeat_eobWord (c : Config) (r : Nat) (h : r < 2 ^ (c.durW + 1)) : fitsBeat c (eobWord c r) = true := by
  apply decide_eq_true
  unfold eobWord
  rw [pow_succ _ (c.durW + 1)]
  generalize 2 ^ (c.durW + 1) = P at *
  omega

theorem eobOf_eobWord (c : Config) (r : Nat) (h : r < 2 ^ (c.durW + 1)) : eobOf c (eobWord c r) = true := by
  unfold eobOf fieldOf eobWord
  have hq : (2 ^ (c.durW + 1) + r) / 2 ^ (c.durW + 1) = 1 := by
    rw [Nat.add_div_left _ (Nat.two_pow_pos _), Nat.div_eq_of_lt h]
  rw [hq]
  rfl

theorem reservedOf_eobWord (c : Config) (r : Nat) (h : r < 2 ^ (c.durW + 1)) : reservedOf c (eobWord c r) = r := by
  unfold reservedOf fieldOf eobWord
  simp [Nat.mod_eq_of_lt h]

/-- The words of a batch fit their format. -/
theorem fitsBeat_batchWords (c : Config) (events : List PulseEvent)
    (h : (events.all fun e => fitsDuration c e.duration) = true) :
    (batchWords c events).all (fitsBeat c) = true := by
  simp only [batchWords, List.all_append, List.all_map, List.all_cons, List.all_nil, Bool.and_true, Bool.and_eq_true,
    List.all_eq_true] at h ⊢
  refine ⟨fun e he => ?_, fitsBeat_eobWord c 0 (Nat.two_pow_pos _)⟩
  exact fitsBeat_pevWord c e (of_decide_eq_true (h e he))

end Sys2Proof
end

