-- ==== Sys2Proof/Laws/Guard.lean ====
section
/-! SUPPORT. What the shared guard of every operation, and sequencing, can answer. -/

namespace Sys2Proof.Machine

/-- An operation answers a next state exactly when the configuration is legal, the operation map selects it,
and its own effect answers that state. -/
theorem whenSelected_next_iff (i : Instr) (s t : State) (o : Host.Outcome State Fault Refusal) :
    whenSelected i s o = .next t ↔ cfgLegal s.cfg = true ∧ selected i s = true ∧ o = .next t := by
  unfold whenSelected
  cases cfgLegal s.cfg <;> cases selected i s <;> simp

/-- Under a legal configuration a selected operation answers its own effect. -/
theorem whenSelected_eq (i : Instr) (s : State) (o : Host.Outcome State Fault Refusal)
    (hc : cfgLegal s.cfg = true) (hs : selected i s = true) : whenSelected i s o = o := by
  simp [whenSelected, hc, hs]

/-- An operation the map does not select is refused. -/
theorem whenSelected_refused (i : Instr) (s : State) (o : Host.Outcome State Fault Refusal)
    (hc : cfgLegal s.cfg = true) (hs : selected i s = false) : whenSelected i s o = .refused .notSelected := by
  simp [whenSelected, hc, hs]

theorem selected_iff (i : Instr) (s : State) :
    selected i s = true ↔ i.wf s.cfg = true ∧ stateSelects s i = true := by
  simp [selected]

/-- Two operations in sequence answer a next state exactly when both do. -/
theorem andThen_next_iff (o : Host.Outcome State Fault Refusal)
    (f : State → Host.Outcome State Fault Refusal) (t : State) :
    andThen o f = .next t ↔ ∃ u, o = .next u ∧ f u = .next t := by
  cases o <;> simp [andThen]

end Sys2Proof.Machine
end

