-- ==== Sys2Proof/Laws/PerInstr.lean ====
section
/-! SUPPORT. Statements about every operation, one lemma for each constructor of `Instr`. -/

namespace Sys2Proof.Laws.EncodedWords

open Sys2Proof Sys2Proof.Machine

/-- The words a selector carries fit their formats (30_encoding.md R60). -/
def fit (c : Config) : Selector → Bool
  | .dataBit w => decide (w < 2)
  | .beat w => fitsBeat c w
  | .batch words => words.all (fitsBeat c)
  | _ => true

/-- The words of a well-formed operation fit their formats. -/
def Statement (i : Instr) : Prop := ∀ c : Config, i.wf c = true → fit c (encode c i) = true

/-- The word of an event whose operand is well-formed. -/
theorem event_fits (c : Config) (k : PulseClass) (level : Bool) (d : Nat) (h : wfEvent c k d = true) :
    fitsBeat c (pevWord c ⟨level, d⟩) = true := by
  simp only [wfEvent, Bool.and_eq_true] at h
  exact fitsBeat_pevWord c ⟨level, d⟩ (of_decide_eq_true h.1)

theorem reset : Statement (.reset) := fun _ _ => rfl
theorem poll (ord : Order) : Statement (.poll ord) := fun _ _ => rfl
theorem netRx (m : NetMessage) : Statement (.netRx m) := fun _ _ => rfl
theorem netRxEmpty (sender : Nat) : Statement (.netRxEmpty sender) := fun _ _ => rfl
theorem netRxOversize (m : NetMessage) : Statement (.netRxOversize m) := fun _ _ => rfl
theorem encode (bytes : List Byte) : Statement (.encode bytes) := fun _ _ => rfl
theorem encBit1 : Statement (.encBit1) := fun _ _ => rfl
theorem encBit0 : Statement (.encBit0) := fun _ _ => rfl
theorem linkRx (events : List PulseEvent) : Statement (.linkRx events) := fun c h => fitsBeat_batchWords c events h
theorem evShort (level : Bool) (d : Nat) : Statement (.evShort level d) := fun c h => event_fits c _ level d h
theorem evLong (level : Bool) (d : Nat) : Statement (.evLong level d) := fun c h => event_fits c _ level d h
theorem evNoise (level : Bool) (d : Nat) : Statement (.evNoise level d) := fun c h => event_fits c _ level d h
theorem evEob (reserved : Nat) : Statement (.evEob reserved) := fun c h => fitsBeat_eobWord c reserved (of_decide_eq_true h)
theorem halfBit (level : Bool) : Statement (.halfBit level) := fun _ _ => rfl
theorem byteFlush : Statement (.byteFlush) := fun _ _ => rfl
theorem frameFwd (fr : FrameRecord) : Statement (.frameFwd fr) := fun _ _ => rfl
theorem frameFwdTrunc (fr : FrameRecord) : Statement (.frameFwdTrunc fr) := fun _ _ => rfl
theorem frameDrop (fr : FrameRecord) : Statement (.frameDrop fr) := fun _ _ => rfl
theorem frameSkip (fr : FrameRecord) : Statement (.frameSkip fr) := fun _ _ => rfl

end Sys2Proof.Laws.EncodedWords
end

