-- ==== Sys2Proof/Tests/Slice0.lean ====
section
/-! SUPPORT. Tests on fixed values, their expected results taken from the spec's vectors and examples
(95_test_vectors.md, and the example line of a rule); the refusal of ill-formed terms; and, for each statement with
hypotheses, a concrete witness that meets them all. -/

namespace Sys2Proof.Tests

open Sys2Proof Sys2Proof.Machine

/-! ### Helpers -/

/-- The next state of an outcome, if it is one. -/
def nextOf (o : Host.Outcome State Fault Refusal) : Option State :=
  match o with
  | .next s => some s
  | .fault _ => none
  | .refused _ => none

/-- The refusal of an outcome, if it is one. -/
def refusalOf (o : Host.Outcome State Fault Refusal) : Option Refusal :=
  match o with
  | .next _ => none
  | .fault _ => none
  | .refused r => some r

/-- Phase, accumulator count and accumulator value, as 95_test_vectors.md section 2.3 writes a state. -/
def decoder (s : State) : Bool × Nat × Byte := (s.phase, s.accBits, s.accValue)

/-- A state with the decoder at the given values. -/
def withDecoder (p : Bool) (n : Nat) (v : Byte) : State := { State.reset with phase := p, accBits := n, accValue := v }

/-- The decoder after an operation from such a state. -/
def decoderAfter (i : Instr) (s : State) : Option (Bool × Nat × Byte) := (nextOf (exec i s)).map decoder

/-- A state with a peer recorded. -/
def withPeer (a : Nat) : State := { State.reset with peerValid := true, peerAddr := a }

/-- The configuration of program P4: `MAX_PAYLOAD = FRAME_MAX = 2`, `PREVIEW_LEN = 1`. -/
def tinyConfig : Config := { maxPayload := 2, previewLen := 1 }

/-- Reset under that configuration. -/
def tiny : State := { State.reset with cfg := tinyConfig }

/-- A configuration whose windows are in the wrong order. -/
def brokenConfig : Config := { shortMax := 20 }

/-- The pulses of a byte with every pulse in short form, by their levels. -/
def shorts (levels : List Bool) : List PulseEvent := levels.map fun l => ⟨l, 10⟩

/-- Vector E8, the levels of 0x41. -/
def levels41 : List Bool :=
  [true, false, false, true, true, false, true, false, true, false, true, false, true, false, false, true]

/-- Program P2 line 2: the words of `FRAME(0x42)`. -/
def frame42 : List Nat :=
  [0x1000A, 0x0000A, 0x0000A, 0x1000A, 0x1000A, 0x0000A, 0x1000A, 0x0000A, 0x1000A, 0x0000A, 0x1000A, 0x0000A,
    0x0000A, 0x1000A, 0x1000A, 0x0000A, 0x20000]

/-- Program P2 line 3: the words of 0x42 with its equal-level pairs merged. -/
def merged42 : List Nat :=
  [0x1000A, 0x00014, 0x10014, 0x0000A, 0x1000A, 0x0000A, 0x1000A, 0x0000A, 0x1000A, 0x00014, 0x10014, 0x0000A,
    0x20000]

/-- Program P2: the words of `BYTE(0x07)`. -/
def byte07 : List Nat :=
  [0x1000A, 0x0000A, 0x1000A, 0x0000A, 0x1000A, 0x0000A, 0x1000A, 0x0000A, 0x1000A, 0x0000A, 0x0000A, 0x1000A,
    0x0000A, 0x1000A, 0x0000A, 0x1000A]

/-! ### Ill-formed terms are refused: one for each check of `Instr.wf`, and the decoder rejects them by name -/

/-- A sender beyond `PEER_W` = 64 bits. -/
theorem test_wf_sender :
    (Instr.netRx ⟨2 ^ 64, [0#8]⟩).wf Config.reference = false ∧
    (Instr.netRxEmpty (2 ^ 64)).wf Config.reference = false ∧
    (Instr.netRxOversize ⟨2 ^ 64, [0#8, 0#8, 0#8]⟩).wf tinyConfig = false ∧
    decode Config.reference (.netMessage ⟨2 ^ 64, [0#8]⟩) = .error .senderTooWide := by decide

/-- A payload length outside what the operation takes (R73). -/
theorem test_wf_payload_length :
    (Instr.netRx ⟨1, []⟩).wf tinyConfig = false ∧ (Instr.netRx ⟨1, [1#8, 2#8, 3#8]⟩).wf tinyConfig = false ∧
    (Instr.netRxOversize ⟨1, [1#8, 2#8]⟩).wf tinyConfig = false ∧
    (Instr.encode [1#8, 2#8, 3#8]).wf tinyConfig = false ∧
    decode tinyConfig (.payload [1#8, 2#8, 3#8]) = .error .payloadTooLong := by decide

/-- A duration outside the operation's class, or wider than `DUR_W` (R65, R159). -/
theorem test_wf_duration :
    (Instr.evShort true 14).wf Config.reference = false ∧ (Instr.evLong true 16).wf Config.reference = false ∧
    (Instr.evNoise true 7).wf Config.reference = false ∧ (Instr.evNoise true 65536).wf Config.reference = false ∧
    (Instr.linkRx [⟨true, 65536⟩]).wf Config.reference = false ∧
    (Instr.evEob 0x20000).wf Config.reference = false ∧
    decode Config.reference (.beat 0x40000) = .error .wordTooWide ∧
    decode Config.reference (.dataBit 2) = .error .wordTooWide := by decide

/-- A record that is no `FRAMEREC`, or not one the operation takes (R72, R73). -/
theorem test_wf_frame :
    (Instr.frameFwd ⟨[], 0, false⟩).wf tinyConfig = false ∧
    (Instr.frameFwd ⟨[1#8], 8, false⟩).wf tinyConfig = false ∧
    (Instr.frameFwd ⟨[1#8, 2#8], 0, true⟩).wf tinyConfig = false ∧
    (Instr.frameFwdTrunc ⟨[1#8], 0, true⟩).wf tinyConfig = false ∧
    (Instr.frameFwdTrunc ⟨[1#8, 2#8], 0, false⟩).wf tinyConfig = false ∧
    (Instr.frameDrop ⟨[1#8, 2#8, 3#8], 0, false⟩).wf tinyConfig = false ∧
    (Instr.frameSkip ⟨[1#8], 0, false⟩).wf tinyConfig = false ∧
    decode tinyConfig (.frame true ⟨[1#8, 2#8, 3#8], 0, false⟩) = .error .notFrameRecord := by decide

/-- A delivery that is not one whole batch (R159). -/
theorem test_batch_refused :
    decode Config.reference (.batch []) = .error .noEndMarker ∧
    decode Config.reference (.batch [0x0000A]) = .error .noEndMarker ∧
    decode Config.reference (.batch [0x20000, 0x0000A]) = .error .beatsAfterEndMarker ∧
    decode Config.reference (.batch [0x20000, 0x20000]) = .error .beatsAfterEndMarker ∧
    decode Config.reference (.batch [0x40000, 0x20000]) = .error .wordTooWide := by decide

/-! ### Decoding: words written out from the spec's encodings -/

/-- `LINECODE` (R64): the data bit itself. -/
theorem test_decode_linecode :
    decodeTableWord 8 0b1 = some .encBit1 ∧ decodeTableWord 8 0b0 = some .encBit0 := by decide

/-- `RXB` (R62) with `eob` = 0: bit 17 eob, bit 16 level, bits 15:0 duration. The window edges are R65's. -/
theorem test_decode_events :
    decodeTableWord 24 0b0_0_0000000000000111 = some (.evShort false 7) ∧
    decodeTableWord 24 0b0_1_0000000000001101 = some (.evShort true 13) ∧
    decodeTableWord 24 0b0_0_0000000000010001 = some (.evLong false 17) ∧
    decodeTableWord 24 0b0_1_0000000000010111 = some (.evLong true 23) ∧
    decodeTableWord 24 0b0_1_0000000000001110 = some (.evNoise true 14) ∧
    decodeTableWord 24 0b0_0_1111111111111111 = some (.evNoise false 65535) := by decide

/-- `RXB` with `eob` = 1: bits 16:0 reserved, ignored (R62, R74). -/
theorem test_decode_eob :
    decodeTableWord 24 0b1_0_0000000000000000 = some (.evEob 0) ∧
    decodeTableWord 24 0b1_1_0000000000001010 = some (.evEob 0x1000A) := by decide

/-- Program P3 line 3: a whole batch, with a noise event and long pulses. -/
theorem test_decode_batch :
    decode Config.reference (.batch [0x0000A, 0x10014, 0x1000F, 0x20000]) =
      .ok (.linkRx [⟨false, 10⟩, ⟨true, 20⟩, ⟨true, 15⟩]) := by decide

/-- A `NETIN` message, by its payload's length (R121). -/
theorem test_decode_net :
    decode tinyConfig (.netMessage ⟨5, [1#8, 2#8]⟩) = .ok (.netRx ⟨5, [1#8, 2#8]⟩) ∧
    decode tinyConfig (.netMessage ⟨5, []⟩) = .ok (.netRxEmpty 5) ∧
    decode tinyConfig (.netMessage ⟨5, [1#8, 2#8, 3#8]⟩) = .ok (.netRxOversize ⟨5, [1#8, 2#8, 3#8]⟩) := by decide

/-- A frame record, in the order of R126's tests: empty, no peer, not truncated, truncated. -/
theorem test_decode_frame :
    decode tinyConfig (.frame false ⟨[], 7, false⟩) = .ok (.frameSkip ⟨[], 7, false⟩) ∧
    decode tinyConfig (.frame false ⟨[1#8, 2#8], 0, true⟩) = .ok (.frameDrop ⟨[1#8, 2#8], 0, true⟩) ∧
    decode tinyConfig (.frame true ⟨[1#8], 1, false⟩) = .ok (.frameFwd ⟨[1#8], 1, false⟩) ∧
    decode tinyConfig (.frame true ⟨[1#8, 2#8], 0, true⟩) = .ok (.frameFwdTrunc ⟨[1#8, 2#8], 0, true⟩) := by decide

/-- The operations selected by no word: the reset input, a tick, a window, a full accumulator (R73). -/
theorem test_decode_wordless :
    decode Config.reference .resetInput = .ok .reset ∧
    decode Config.reference (.tick .linkFirst) = .ok (.poll .linkFirst) ∧
    decode Config.reference (.window true) = .ok (.halfBit true) ∧
    decode Config.reference .accumulatorFull = .ok .byteFlush ∧
    decode Config.reference (.payload [0x41#8]) = .ok (.encode [0x41#8]) := by decide

/-! ### Steps from reset -/

/-- `withFetchWord` places a word so that the very next step runs it: R93 from phase 0 toggles the phase. -/
theorem test_step_event :
    (nextOf (step (State.reset.withFetchWord 24 0x1000A))).map decoder = some (true, 0, 0#8) ∧
    (nextOf (step (State.reset.withFetchWord 24 0x10014))).map decoder = some (false, 1, 0x80#8) := by decide

/-- The same for the two line-code rows (vectors E2, E3). -/
theorem test_step_linecode :
    (nextOf (step (State.reset.withFetchWord 8 1))).map (·.result) =
      some (.pulses [⟨false, 10⟩, ⟨true, 10⟩]) ∧
    (nextOf (step (State.reset.withFetchWord 8 0))).map (·.result) =
      some (.pulses [⟨true, 10⟩, ⟨false, 10⟩]) := by decide

/-- The same for noise and the end of a batch: P5 line 4's words. -/
theorem test_step_noise_and_eob :
    (nextOf (step (State.reset.withFetchWord 24 0x10003))).map (·.notes) = some [.noise] ∧
    (nextOf (step (State.reset.withFetchWord 24 0x20000))).map (·.notes) = some [.emptyFrame] := by decide

/-- A stimulus line with arrivals (R77): `iter LINK_FIRST net=(5, []) link=EOB` (P3 line 2, P5 line 3). -/
theorem test_step_iter :
    (nextOf (step { State.reset with stimulus := [iterLine .linkFirst (some ⟨5, []⟩) (some [0x20000])] })).map
      (fun s => (s.out, s.peerAddr, s.netIn.length + s.linkRx.length)) =
    some ([.linkTx [], .logOut ⟨.netToLink, .forwarded, 0, []⟩], 5, 0) := by decide

/-! ### RESET and POLL -/

/-- Vector R-1. -/
theorem test_reset :
    (nextOf (exec .reset { withDecoder true 3 0xA0#8 with frameLen := 2, frameTrunc := true, peerValid := true })).map
      (fun s => (decoder s, s.frameLen, s.frameTrunc, s.peerValid, s.out)) =
    some ((false, 0, 0#8), 0, false, false, []) := by decide

/-- Vector G7: under NET_FIRST the frame goes to the new peer. -/
theorem test_poll_netFirst :
    (nextOf (exec (.poll .netFirst) { withPeer 1 with netIn := [⟨2, [0x07#8]⟩], linkRx := [merged42] })).map (·.out) =
    some [.linkTx byte07, .logOut ⟨.netToLink, .forwarded, 1, []⟩, .netOut 2 [0x42#8],
      .logOut ⟨.linkToNet, .forwarded, 1, []⟩] := by decide

/-- Vector G8: under LINK_FIRST it goes to the old one, and its outputs come first. -/
theorem test_poll_linkFirst :
    (nextOf (exec (.poll .linkFirst) { withPeer 1 with netIn := [⟨2, [0x07#8]⟩], linkRx := [frame42] })).map (·.out) =
    some [.netOut 1 [0x42#8], .logOut ⟨.linkToNet, .forwarded, 1, []⟩, .linkTx byte07,
      .logOut ⟨.netToLink, .forwarded, 1, []⟩] := by decide

/-! ### The network side -/

/-- Program P2 line 3: `BYTE(0x07)` to the transport, the sender recorded. -/
theorem test_netRx :
    (nextOf (exec (.netRx ⟨9, [0x07#8]⟩) State.reset)).map (fun s => (s.out, s.peerAddr, s.peerValid)) =
    some ([.linkTx byte07, .logOut ⟨.netToLink, .forwarded, 1, []⟩], 9, true) := by decide

/-- Program P4 line 3: the payload of exactly `MAX_PAYLOAD` bytes, its preview cut to `PREVIEW_LEN`. -/
theorem test_netRx_preview :
    (nextOf (exec (.netRx ⟨9, [1#8, 2#8]⟩) tiny)).map (fun s => logsOf s.out) =
    some [⟨.netToLink, .forwarded, 2, [1#8]⟩] := by decide

/-- Vector G3. -/
theorem test_netRxEmpty :
    (nextOf (exec (.netRxEmpty 7) State.reset)).map (fun s => (s.out, s.peerAddr, s.peerValid)) =
    some ([.linkTx [], .logOut ⟨.netToLink, .forwarded, 0, []⟩], 7, true) := by decide

/-- Program P4 line 2: rejected whole, the peer stays unrecorded. -/
theorem test_netRxOversize :
    (nextOf (exec (.netRxOversize ⟨7, [1#8, 2#8, 3#8]⟩) tiny)).map (fun s => (s.out, s.peerValid, s.notes)) =
    some ([.logOut ⟨.netToLink, .rejectedOversize, 3, [1#8]⟩], false, [.oversizePayload]) := by decide

/-! ### The encoder -/

/-- Vector E8: 0x41, most significant bit first. -/
theorem test_encode :
    (nextOf (exec (.encode [0x41#8]) State.reset)).map (·.result) = some (.pulses (shorts levels41)) := by decide

/-- Vector E1. -/
theorem test_encode_empty :
    (nextOf (exec (.encode []) State.reset)).map (·.result) = some (.pulses []) := by decide

/-- Vectors E2 and E3. -/
theorem test_encBits :
    (nextOf (exec .encBit1 State.reset)).map (·.result) = some (.pulses [⟨false, 10⟩, ⟨true, 10⟩]) ∧
    (nextOf (exec .encBit0 State.reset)).map (·.result) = some (.pulses [⟨true, 10⟩, ⟨false, 10⟩]) := by decide

/-- Vectors C1 to C13. -/
theorem test_classify :
    [0, 6, 14, 15, 16, 24, 65535].map (classify Config.reference) = List.replicate 7 .noise ∧
    [7, 10, 13].map (classify Config.reference) = List.replicate 3 .short ∧
    [17, 20, 23].map (classify Config.reference) = List.replicate 3 .long := by decide

/-! ### The decoder -/

/-- Vectors V1 and V2. -/
theorem test_evShort :
    decoderAfter (.evShort true 10) (withDecoder false 0 0#8) = some (true, 0, 0#8) ∧
    decoderAfter (.evShort true 10) (withDecoder true 0 0#8) = some (false, 1, 0x80#8) := by decide

/-- Vector V4: the eighth bit flushes 0x41 at `frame_len`. -/
theorem test_evShort_flush :
    (nextOf (exec (.evShort true 7) { withDecoder true 7 0x40#8 with frameLen := 5 })).map
      (fun s => (decoder s, s.frameLen, s.frameBuf)) = some ((false, 0, 0#8), 6, [(5, 0x41#8)]) := by decide

/-- Vectors V5 and V6: a long at phase 0 resolves in its second window, at phase 1 in its first. -/
theorem test_evLong :
    decoderAfter (.evLong true 20) (withDecoder false 3 0xA0#8) = some (false, 4, 0xB0#8) ∧
    decoderAfter (.evLong false 20) (withDecoder true 3 0xA0#8) = some (true, 4, 0xA0#8) := by decide

/-- Vector V7: a flush in the first window, the second is a first half. -/
theorem test_evLong_flush :
    (nextOf (exec (.evLong true 17) (withDecoder true 7 0xFE#8))).map (fun s => (decoder s, s.frameBuf)) =
    some ((true, 0, 0#8), [(0, 0xFF#8)]) := by decide

/-- Vector V8. -/
theorem test_evNoise : decoderAfter (.evNoise true 15) (withDecoder true 3 0xA0#8) = some (true, 3, 0xA0#8) := by decide

/-- The example of R96. -/
theorem test_halfBit :
    decoderAfter (.halfBit true) (withDecoder true 3 0b10100000#8) = some (false, 4, 0b10110000#8) := by decide

/-- Vector V9: with the buffer full the byte 0x7E is discarded. -/
theorem test_halfBit_full :
    (nextOf (exec (.halfBit false) { tiny with phase := true, accBits := 7, accValue := 0x7E#8, frameLen := 2 })).map
      (fun s => (decoder s, s.frameLen, s.frameTrunc, s.notes)) =
    some ((false, 0, 0#8), 2, true, [.frameOverflow]) := by decide

/-- R97: a byte of 0x00 is stored too (the canonical form lists nothing for it), and counted. -/
theorem test_byteFlush :
    (nextOf (exec .byteFlush (withDecoder true 8 0xAA#8))).map (fun s => (decoder s, s.frameLen, s.frameBuf)) =
      some ((true, 0, 0#8), 1, [(0, 0xAA#8)]) ∧
    (nextOf (exec .byteFlush { withDecoder true 8 0#8 with frameBuf := [(0, 0xAA#8)] })).map
      (fun s => (s.frameLen, s.frameBuf)) = some (1, []) := by decide

/-! ### Batches and frames -/

/-- Vector B2: 0x42 with merged pairs. -/
theorem test_linkRx :
    (nextOf (exec (.linkRx [⟨true, 10⟩, ⟨false, 20⟩, ⟨true, 20⟩, ⟨false, 10⟩, ⟨true, 10⟩, ⟨false, 10⟩, ⟨true, 10⟩,
      ⟨false, 10⟩, ⟨true, 10⟩, ⟨false, 20⟩, ⟨true, 20⟩, ⟨false, 10⟩]) State.reset)).map (·.result) =
    some (.frame ⟨[0x42#8], 0, false⟩) := by decide

/-- Vector B15: one spurious leading half-bit shifts every bit; the leftover phase is discarded (R112). -/
theorem test_linkRx_shifted :
    (nextOf (exec (.linkRx (⟨true, 10⟩ :: shorts levels41)) State.reset)).map (fun s => (s.result, decoder s)) =
    some (.frame ⟨[0xBE#8], 0, false⟩, (false, 0, 0#8)) := by decide

/-- Vector F5: one byte 0xFF and one residual bit, with K2 noted and the residue discarded. -/
theorem test_evEob :
    (nextOf (exec (.evEob 0x1FFFF) { withDecoder false 1 0x80#8 with frameLen := 1, frameBuf := [(0, 0xFF#8)] })).map
      (fun s => (s.result, decoder s, s.frameLen, s.notes)) =
    some (.frame ⟨[0xFF#8], 1, false⟩, (false, 0, 0#8), 0, [.truncatedFrame]) := by decide

/-- Vector F1: nothing is emitted. -/
theorem test_frameSkip :
    (nextOf (exec (.frameSkip ⟨[], 7, false⟩) (withPeer 1))).map (·.out) = some [] := by decide

/-- Vector G6. -/
theorem test_frameFwd :
    (nextOf (exec (.frameFwd ⟨[0x42#8], 0, false⟩) (withPeer 3))).map (·.out) =
    some [.netOut 3 [0x42#8], .logOut ⟨.linkToNet, .forwarded, 1, []⟩] := by decide

/-- Program P4 line 4. -/
theorem test_frameFwdTrunc :
    (nextOf (exec (.frameFwdTrunc ⟨[1#8, 2#8], 0, true⟩) { tiny with peerValid := true, peerAddr := 3 })).map (·.out) =
    some [.netOut 3 [1#8, 2#8], .logOut ⟨.linkToNet, .forwardedTruncated, 2, [1#8]⟩] := by decide

/-- Program P4 line 3: the drop takes precedence over the truncation (R148). -/
theorem test_frameDrop :
    (nextOf (exec (.frameDrop ⟨[1#8, 2#8], 0, true⟩) tiny)).map (fun s => (s.out, s.notes)) =
    some ([.logOut ⟨.linkToNet, .droppedNoPeer, 2, [1#8]⟩], [.noPeer]) := by decide

/-! ### What is refused -/

/-- R7's ranges, at their ends: `DUR_W` 0 and 33, `PEER_W` 0, `TICK_NS` 0 and below are refused, `DUR_W` 5 (the least
that holds `LONG_MAX` = 23) and 32 are not. -/
theorem test_config_ranges :
    (∀ c ∈ ([{ durW := 0 }, { durW := 33 }, { peerW := 0 }, { tickNs := 0 }, { tickNs := -1 }] : List Config),
      cfgLegal c = false) ∧
    (∀ c ∈ ([{ durW := 5 }, { durW := 32 }, { peerW := 1 }, { tickNs := 1 }] : List Config),
      cfgLegal c = true) ∧
    refusalOf (exec .encBit1 { State.reset with cfg := { tickNs := 0 } }) = some .configNotLegal := by decide

/-- R8, R163, R159 and R73: each refusal has an input that reaches it. -/
theorem test_refusals :
    refusalOf (exec .encBit1 { State.reset with cfg := brokenConfig }) = some .configNotLegal ∧
    refusalOf (exec (.poll .netFirst) { State.reset with booted := false }) = some .notReset ∧
    refusalOf (exec (.frameFwd ⟨[1#8], 0, false⟩) State.reset) = some .notSelected ∧
    refusalOf (exec .byteFlush State.reset) = some .notSelected ∧
    refusalOf (exec (.poll .netFirst) { State.reset with linkRx := [[0x0000A]] }) = some (.rejected .noEndMarker) ∧
    refusalOf (step (State.reset.withFetchWord 24 0x40000)) = some (.rejected .wordTooWide) := by decide

/-- The frame buffer after reset is in canonical form. -/
theorem test_reset_memory : Memory.wf State.reset.frameBuf = true := by decide

/-! ### Witnesses: for each statement with hypotheses, values that meet them together, each clause at a boundary -/

/-- The outcome is a next state. -/
def isNext (o : Host.Outcome State Fault Refusal) : Bool := (nextOf o).isSome

theorem exists_next_of_isNext {o : Host.Outcome State Fault Refusal} (h : isNext o = true) : ∃ t, o = .next t := by
  cases o with
  | next t => exact ⟨t, rfl⟩
  | fault f => cases h
  | refused r => cases h

/-- A payload of `MAX_PAYLOAD` bytes under `tinyConfig`, and one byte more. -/
def two : List Byte := [1#8, 2#8]
def three : List Byte := [1#8, 2#8, 3#8]

theorem witness_ResetWritesItsValuesOnly : cfgLegal State.reset.cfg = true := by decide

/-- One configuration for each line of `cfg_ok`, failing that line. -/
theorem witness_ConfigurationFailingCfgOkIsRefused :
    ∀ c ∈ ([{ shortMin := 14 }, { longMin := 24 }, { shortMax := 17 }, { txShort := 6 }, { txShort := 14 },
      { longMax := 65536 }, { frameMax := 0 }, { maxPayload := 0, frameMax := 1 }] : List Config),
      ¬ (c.shortMin ≤ c.shortMax ∧ c.longMin ≤ c.longMax ∧ c.shortMax < c.longMin ∧ c.shortMin ≤ c.txShort ∧
        c.txShort ≤ c.shortMax ∧ c.longMax ≤ 2 ^ c.durW - 1 ∧ 1 ≤ c.frameMax ∧ 1 ≤ c.maxPayload) := by decide

theorem witness_PollBeforeResetIsRefused :
    cfgLegal { State.reset with booted := false }.cfg = true ∧ { State.reset with booted := false }.booted = false := by
  decide

/-- Each clause of the refusal, at its boundary: operands, `acc_bits` = 8, `acc_bits` = 7 for the flush, `peer_valid`. -/
theorem witness_RefusedExactlyWhenNotSelected :
    cfgLegal tinyConfig = true ∧ (Instr.evShort true 14).wf tinyConfig = false ∧
    refusalOf (exec (.halfBit true) { tiny with accBits := 8 }) = some .notSelected ∧
    refusalOf (exec .byteFlush { tiny with accBits := 7 }) = some .notSelected ∧
    refusalOf (exec (.frameFwdTrunc ⟨two, 0, true⟩) tiny) = some .notSelected ∧
    refusalOf (exec (.frameDrop ⟨two, 0, true⟩) { tiny with peerValid := true }) = some .notSelected := by decide

/-- Each clause: a stimulus that selects an operation, no stimulus, one that selects nothing, a word that decodes. -/
theorem witness_StepRunsTheSelectedOperation :
    (∃ (s : State) (st : Stimulus) (rest : List Stimulus) (i : Instr), s.stimulus = st :: rest ∧ decode s.cfg st.select = .ok i) ∧ State.reset.stimulus = [] ∧
    (∃ (s : State) (st : Stimulus) (rest : List Stimulus) (r : Reject), s.stimulus = st :: rest ∧
      decode s.cfg st.select = .error r) ∧
    decode State.reset.cfg (wordSelector 24 0x20000) = .ok (.evEob 0) :=
  ⟨⟨{ State.reset with stimulus := [resetLine] }, resetLine, [], .reset, rfl, rfl⟩, rfl,
    ⟨{ State.reset with stimulus := [{ select := .batch [] }] }, { select := .batch [] }, [], .noEndMarker, rfl, rfl⟩,
    by decide⟩

/-- One well-formed term of each constructor, operands at the ends of their ranges. -/
theorem witness_DecodeOfEncodeIsTheOperation :
    cfgLegal tinyConfig = true ∧
    ∀ i ∈ ([.reset, .poll .netFirst, .netRx ⟨2 ^ 64 - 1, two⟩, .netRxEmpty 0, .netRxOversize ⟨0, three⟩, .encode two,
      .encBit1, .encBit0, .linkRx [⟨true, 65535⟩], .evShort true 7, .evShort false 13, .evLong true 17,
      .evLong false 23, .evNoise true 0, .evNoise false 65535, .evEob 0x1FFFF, .halfBit true, .byteFlush,
      .frameFwd ⟨two, 7, false⟩, .frameFwdTrunc ⟨two, 0, true⟩, .frameDrop ⟨two, 0, true⟩,
      .frameSkip ⟨[], 7, false⟩] : List Instr), i.wf tinyConfig = true := by decide

theorem witness_BeatWordHasOneMeaning :
    decode Config.reference (.beat 0x3FFFF) = .ok (.evEob 0x1FFFF) ∧
    decode Config.reference (.beat 0x1FFFF) = .ok (.evNoise true 65535) := by decide

theorem witness_PulseEventWordLayout : (⟨true, 65535⟩ : PulseEvent).duration < 2 ^ Config.reference.durW := by decide

theorem witness_LineCodeTable : cfgLegal tiny.cfg = true := by decide

/-- `MAX_PAYLOAD` bytes; byte 1 with its last bit. -/
theorem witness_EncodeEmitsTwoHalfBitsPerBit :
    cfgLegal tiny.cfg = true ∧ two.length ≤ tiny.cfg.maxPayload ∧ two[1]? = some 2#8 ∧ 7 < 8 := by decide

theorem witness_EncoderConcatenatesAndEmitsShorts : cfgLegal tinyConfig = true ∧ (⟨true, 10⟩ : PulseEvent) ∈
    encodeBytes tinyConfig two := by decide

theorem witness_ClassifyByInclusiveWindows : cfgLegal Config.reference = true := by decide

theorem witness_NoiseEventChangesNothing :
    cfgLegal tiny.cfg = true ∧ 65535 < 2 ^ tiny.cfg.durW ∧ classify tiny.cfg 65535 = .noise ∧
    classify tiny.cfg 14 = .noise := by decide

/-- A first half; a bit within the byte; the eighth bit with room for one byte; the eighth bit, buffer full. -/
theorem witness_HalfBitWindowEffect :
    (∃ s : State, cfgLegal s.cfg = true ∧ s.accBits ≤ 7 ∧ s.phase = false) ∧
    (∃ s : State, cfgLegal s.cfg = true ∧ s.accBits ≤ 7 ∧ s.phase = true ∧ s.accBits < 7) ∧
    (∃ s : State, cfgLegal s.cfg = true ∧ s.accBits ≤ 7 ∧ s.phase = true ∧ s.accBits = 7 ∧
      s.frameLen < s.cfg.frameMax) ∧
    (∃ s : State, cfgLegal s.cfg = true ∧ s.accBits ≤ 7 ∧ s.phase = true ∧ s.accBits = 7 ∧
      s.cfg.frameMax ≤ s.frameLen) :=
  ⟨⟨tiny, by decide⟩, ⟨{ tiny with phase := true, accBits := 6 }, by decide⟩,
    ⟨{ tiny with phase := true, accBits := 7, frameLen := 1 }, by decide⟩,
    ⟨{ tiny with phase := true, accBits := 7, frameLen := 2 }, by decide⟩⟩

theorem witness_ShortEventIsOneWindow :
    cfgLegal tiny.cfg = true ∧ tiny.accBits ≤ 7 ∧ 13 < 2 ^ tiny.cfg.durW ∧ classify tiny.cfg 13 = .short := by decide

theorem witness_LongEventIsTwoWindows :
    cfgLegal tiny.cfg = true ∧ tiny.accBits ≤ 7 ∧ 23 < 2 ^ tiny.cfg.durW ∧ classify tiny.cfg 23 = .long := by decide

/-- Room for one byte more, and none. -/
theorem witness_ByteFlushStoresOrDiscards :
    (∃ s : State, cfgLegal s.cfg = true ∧ s.accBits = 8 ∧ s.frameLen < s.cfg.frameMax ∧ Memory.wf s.frameBuf = true) ∧
    (∃ s : State, cfgLegal s.cfg = true ∧ s.accBits = 8 ∧ s.cfg.frameMax ≤ s.frameLen) :=
  ⟨⟨{ tiny with accBits := 8, frameLen := 1, frameBuf := [(0, 1#8)] }, by decide⟩,
    ⟨{ tiny with accBits := 8, frameLen := 2 }, by decide⟩⟩

/-- 19 windows: one stored byte and one residual bit, so the clauses on bytes and on residual bits have cases. -/
def nineteen : List PulseEvent := shorts (levels41 ++ [true, false, true])

theorem witness_CountingLaw :
    Memory.wf State.reset.frameBuf = true ∧ (batchDecoded nineteen State.reset).frameLen = 1 ∧
    (batchDecoded nineteen State.reset).accBits = 1 := by decide

theorem witness_LinkRxReturnsTheDecodedFrame :
    cfgLegal State.reset.cfg = true ∧ Memory.wf State.reset.frameBuf = true ∧
    (∀ e ∈ nineteen, e.duration < 2 ^ State.reset.cfg.durW) := by decide

theorem witness_NoBatchObservesAnEarlierOne :
    cfgLegal State.reset.cfg = true ∧ (withDecoder true 3 0xA0#8).cfg = State.reset.cfg ∧
    Memory.wf State.reset.frameBuf = true ∧ Memory.wf (withDecoder true 3 0xA0#8).frameBuf = true ∧
    (∀ e ∈ nineteen, e.duration < 2 ^ State.reset.cfg.durW) := by decide

/-- `S0 S1` and `S1 S1` (R100). -/
theorem witness_FirstHalfLevelsAreNotRead :
    cfgLegal State.reset.cfg = true ∧ Memory.wf State.reset.frameBuf = true ∧
    (∀ e ∈ shorts [false, true], e.duration < 2 ^ State.reset.cfg.durW) ∧
    (∀ e ∈ shorts [true, true], e.duration < 2 ^ State.reset.cfg.durW) ∧
    (windowsOf State.reset.cfg (shorts [false, true])).length =
      (windowsOf State.reset.cfg (shorts [true, true])).length ∧
    (∀ k, (windowsOf State.reset.cfg (shorts [false, true]))[2 * k + 1]? =
      (windowsOf State.reset.cfg (shorts [true, true]))[2 * k + 1]?) := by
  refine ⟨by decide, by decide, by decide, by decide, by decide, fun k => ?_⟩
  have h1 : windowsOf State.reset.cfg (shorts [false, true]) = [false, true] := by decide
  have h2 : windowsOf State.reset.cfg (shorts [true, true]) = [true, true] := by decide
  rw [h1, h2]
  cases k <;> rfl

/-- `S0 N(15,1) S1` (R92). -/
theorem witness_NoiseDoesNotAlterTheFrame :
    cfgLegal State.reset.cfg = true ∧
    (∀ x ∈ ([⟨false, 10⟩] ++ ⟨true, 15⟩ :: [⟨true, 10⟩] : List PulseEvent), x.duration < 2 ^ State.reset.cfg.durW) ∧
    classify State.reset.cfg (⟨true, 15⟩ : PulseEvent).duration = .noise := by decide

theorem witness_MergedHalfBitsDecodeAlike :
    cfgLegal State.reset.cfg = true ∧
    (∀ x ∈ shorts [true] ++ shorts [false], x.duration < 2 ^ State.reset.cfg.durW) ∧
    State.reset.cfg.longMin ≤ 17 ∧ 17 ≤ State.reset.cfg.longMax ∧
    State.reset.cfg.shortMin ≤ 7 ∧ 7 ≤ State.reset.cfg.shortMax ∧
    State.reset.cfg.shortMin ≤ 13 ∧ 13 ≤ State.reset.cfg.shortMax := by decide

theorem witness_DecodeOfEncodedBytesIsTheBytes :
    cfgLegal tiny.cfg = true ∧ Memory.wf tiny.frameBuf = true := by decide

theorem witness_EndOfBatchReturnsTheRecord :
    ∃ s : State, cfgLegal s.cfg = true ∧ s.accBits ≤ 7 ∧ 0x1FFFF < 2 ^ (s.cfg.durW + 1) ∧ 1 < s.frameLen :=
  ⟨{ tiny with accBits := 7, frameLen := 2 }, by decide⟩

/-- 15 windows, the longest such batch, and one window. -/
theorem witness_ShortBatchNotesTruncatedAndEmpty :
    cfgLegal State.reset.cfg = true ∧
    (∀ e ∈ shorts (levels41.take 15), e.duration < 2 ^ State.reset.cfg.durW) ∧
    (windowsOf State.reset.cfg (shorts (levels41.take 15))).length ≤ 15 ∧
    (windowsOf State.reset.cfg (shorts [true])).length ≤ 15 := by decide

theorem witness_BeatByBeatIsTheWholeBatch :
    cfgLegal State.reset.cfg = true ∧ DecoderAtRest State.reset ∧
    (∀ e ∈ nineteen, e.duration < 2 ^ State.reset.cfg.durW) ∧ 0x1FFFF < 2 ^ (State.reset.cfg.durW + 1) :=
  ⟨by decide, ⟨rfl, rfl, rfl, rfl, rfl⟩, by decide, by decide⟩

theorem witness_EmptyFrameIsSkipped :
    cfgLegal tiny.cfg = true ∧ (⟨[], 7, false⟩ : FrameRecord).bytes = [] ∧
    (⟨[], 7, false⟩ : FrameRecord).residualBits ≤ 7 ∧ (⟨[], 7, false⟩ : FrameRecord).truncated = false := by decide

theorem witness_AcceptedPayloadIsEncodedAndLogged :
    cfgLegal tiny.cfg = true ∧ (⟨2 ^ 64 - 1, two⟩ : NetMessage).sender < 2 ^ tiny.cfg.peerW ∧
    1 ≤ (⟨2 ^ 64 - 1, two⟩ : NetMessage).payload.length ∧
    (⟨2 ^ 64 - 1, two⟩ : NetMessage).payload.length ≤ tiny.cfg.maxPayload := by decide

theorem witness_EmptyPayloadIsAccepted : cfgLegal tiny.cfg = true ∧ 2 ^ 64 - 1 < 2 ^ tiny.cfg.peerW := by decide

theorem witness_OversizePayloadIsRejectedAndLogged :
    cfgLegal tiny.cfg = true ∧ (⟨0, three⟩ : NetMessage).sender < 2 ^ tiny.cfg.peerW ∧
    tiny.cfg.maxPayload < (⟨0, three⟩ : NetMessage).payload.length := by decide

/-- A state with a peer under `tinyConfig`. -/
def tinyPeer : State := { tiny with peerValid := true, peerAddr := 1 }

theorem witness_FrameIsForwardedToThePeer :
    cfgLegal tinyPeer.cfg = true ∧ 1 ≤ (⟨two, 7, false⟩ : FrameRecord).bytes.length ∧
    (⟨two, 7, false⟩ : FrameRecord).bytes.length ≤ tinyPeer.cfg.frameMax ∧
    (⟨two, 7, false⟩ : FrameRecord).residualBits ≤ 7 ∧ (⟨two, 7, false⟩ : FrameRecord).truncated = false ∧
    tinyPeer.peerValid = true := by decide

theorem witness_TruncatedFrameIsForwardedAndMarked :
    cfgLegal tinyPeer.cfg = true ∧ (⟨two, 7, true⟩ : FrameRecord).bytes.length = tinyPeer.cfg.frameMax ∧
    (⟨two, 7, true⟩ : FrameRecord).residualBits ≤ 7 ∧ (⟨two, 7, true⟩ : FrameRecord).truncated = true ∧
    tinyPeer.peerValid = true := by decide

theorem witness_FrameWithoutPeerIsDroppedAndLogged :
    cfgLegal tiny.cfg = true ∧ 1 ≤ (⟨two, 7, true⟩ : FrameRecord).bytes.length ∧
    (⟨two, 7, true⟩ : FrameRecord).bytes.length ≤ tiny.cfg.frameMax ∧
    (⟨two, 7, true⟩ : FrameRecord).residualBits ≤ 7 ∧
    ((⟨two, 7, true⟩ : FrameRecord).truncated = true →
      (⟨two, 7, true⟩ : FrameRecord).bytes.length = tiny.cfg.frameMax) ∧ tiny.peerValid = false := by decide

theorem witness_IdleIterationChangesNothing :
    cfgLegal State.reset.cfg = true ∧ State.reset.booted = true ∧ State.reset.netIn = [] ∧
    State.reset.linkRx = [] := by decide

/-- A message and a batch waiting, both within the duties. -/
def busy : State :=
  { State.reset with netIn := [⟨2, [7#8]⟩, ⟨3, []⟩], linkRx := [frame42, [0x20000]], peerValid := true, peerAddr := 1 }

theorem witness_IterationCompletesWithinDuties :
    cfgLegal busy.cfg = true ∧ busy.booted = true ∧ WithinDuties busy := by
  refine ⟨by decide, by decide, ?_, ?_⟩
  · intro m hm
    cases hm
    decide
  · intro b hb
    cases hb
    exact ⟨frame42.take 16, 0x20000, by decide, by decide, by decide, by decide⟩

/-- A delivery without its end marker; a sender that is no token. -/
theorem witness_IterationRefusesBrokenDeliveries :
    (∃ s : State, cfgLegal s.cfg = true ∧ s.booted = true ∧ ¬ WithinDuties s ∧ s.netIn = []) ∧
    (∃ s : State, cfgLegal s.cfg = true ∧ s.booted = true ∧ ¬ WithinDuties s ∧ s.linkRx = []) := by
  refine ⟨⟨{ State.reset with linkRx := [[]] }, by decide, by decide, ?_, rfl⟩,
    ⟨{ State.reset with netIn := [⟨2 ^ 64, []⟩] }, by decide, by decide, ?_, rfl⟩⟩
  · rintro ⟨_, h⟩
    obtain ⟨body, last, h, _⟩ := h [] rfl
    simp at h
  · rintro ⟨h, _⟩
    exact absurd (h _ rfl) (by decide)

/-- Each length: beyond `MAX_PAYLOAD`, empty, exactly `MAX_PAYLOAD`. -/
theorem witness_IterationRunsTheMessageItReceives :
    ∀ m ∈ ([⟨1, three⟩, ⟨1, []⟩, ⟨1, two⟩] : List NetMessage),
      cfgLegal { tiny with netIn := [m] }.cfg = true ∧ { tiny with netIn := [m] }.booted = true ∧
      { tiny with netIn := [m] }.netIn = m :: [] ∧ { tiny with netIn := [m] }.linkRx = [] ∧
      m.sender < 2 ^ { tiny with netIn := [m] }.cfg.peerW := by decide

/-- Vector B14: eight long pulses, a byte 0xAA. -/
def longs8 : List Nat := [0x10014, 0x00014, 0x10014, 0x00014, 0x10014, 0x00014, 0x10014, 0x00014]

/-- An empty batch; a batch of a byte with no peer and with one; a batch that overflows `FRAME_MAX` = 1. -/
theorem witness_IterationRunsTheBatchItReceives :
    (∀ w ∈ ([[0x20000], frame42] : List (List Nat)),
      cfgLegal { tiny with linkRx := [w] }.cfg = true ∧ { tiny with linkRx := [w] }.booted = true ∧
      { tiny with linkRx := [w] }.netIn = [] ∧ { tiny with linkRx := [w] }.linkRx = w :: []) ∧
    decodeBatch tinyConfig [0x20000] = .ok [] ∧
    (decodeBatch tinyConfig frame42).toOption.map (fun evs => (linkRxRecord evs tiny).bytes) = some [0x42#8] ∧
    (decodeBatch tinyConfig (longs8 ++ longs8 ++ [0x20000])).toOption.map
      (fun evs => (linkRxRecord evs { tiny with cfg := { tinyConfig with frameMax := 1 } }).truncated) = some true := by
  refine ⟨by decide, by decide, by decide, ?_⟩
  decide

theorem witness_IterationIsItsDirectionsInDrawnOrder : cfgLegal busy.cfg = true ∧ busy.booted = true := by decide

/-- A payload of one byte from peer 2 and a batch of one byte (16 windows), with peer 1 recorded and with none. -/
theorem witness_SameIterationRace :
    cfgLegal busy.cfg = true ∧ busy.booted = true ∧ busy.netIn = ⟨2, [7#8]⟩ :: [⟨3, []⟩] ∧ 2 < 2 ^ busy.cfg.peerW ∧
    [7#8].length ≤ busy.cfg.maxPayload ∧ busy.linkRx = frame42 :: [[0x20000]] ∧
    (decodeBatch busy.cfg frame42).toOption.map (fun evs => (windowsOf busy.cfg evs).length) = some 16 ∧
    busy.peerValid = true ∧ { busy with peerValid := false }.peerValid = false := by decide

/-- A payload of exactly `MAX_PAYLOAD` = `FRAME_MAX` bytes. -/
theorem witness_PayloadComesBackToItsSender :
    cfgLegal tiny.cfg = true ∧ tiny.booted = true ∧ Memory.wf tiny.frameBuf = true ∧
    { tiny with netIn := [⟨2 ^ 64 - 1, two⟩] }.netIn = [⟨2 ^ 64 - 1, two⟩] ∧ tiny.linkRx = [] ∧
    2 ^ 64 - 1 < 2 ^ tiny.cfg.peerW ∧ 1 ≤ two.length ∧ two.length ≤ tiny.cfg.maxPayload ∧
    two.length ≤ tiny.cfg.frameMax := by decide

theorem witness_IterationDropsFrameWithoutPeer :
    cfgLegal State.reset.cfg = true ∧ State.reset.booted = true ∧ State.reset.netIn = [] ∧
    { State.reset with linkRx := [frame42] }.linkRx = [frame42] ∧
    (decodeBatch State.reset.cfg frame42).toOption.map (fun evs => (windowsOf State.reset.cfg evs).length) =
      some 16 ∧ State.reset.peerValid = false := by decide

/-- 15 windows, and none. -/
theorem witness_IterationIsSilentOnEmptyFrame :
    cfgLegal State.reset.cfg = true ∧ State.reset.booted = true ∧ State.reset.netIn = [] ∧
    (decodeBatch State.reset.cfg (frame42.drop 1)).toOption.map
      (fun evs => (windowsOf State.reset.cfg evs).length) = some 15 ∧
    decodeBatch State.reset.cfg [0x20000] = .ok [] := by decide

/-- Every operation of the frame statements answers a next state somewhere. -/
theorem witness_EncoderAndBridgeFrame :
    (∀ i ∈ ([.encode two, .encBit1, .encBit0, .netRx ⟨1, two⟩, .netRxEmpty 1, .netRxOversize ⟨1, three⟩,
      .frameFwd ⟨two, 7, false⟩, .frameFwdTrunc ⟨two, 7, true⟩, .frameSkip ⟨[], 7, false⟩] : List Instr),
      isNext (exec i tinyPeer) = true) ∧ isNext (exec (.frameDrop ⟨two, 7, true⟩) tiny) = true := by decide

/-- With a store (the eighth bit, room for one byte) and without. -/
theorem witness_DecoderOperationsFrame :
    (∀ i ∈ ([.evShort true 13, .evLong true 17, .evNoise true 14, .evEob 0, .halfBit true] : List Instr),
      isNext (exec i { tiny with phase := true, accBits := 7, frameLen := 1 }) = true) ∧
    isNext (exec .byteFlush { tiny with accBits := 8, frameLen := 1 }) = true ∧
    storedIndex (.halfBit true) { tiny with phase := true, accBits := 7, frameLen := 1 } = some 1 ∧
    storedIndex (.halfBit true) { tiny with phase := true, accBits := 7, frameLen := 2 } = none := by decide

theorem witness_LinkRxFrame :
    isNext (exec (.linkRx nineteen) State.reset) = true ∧ bytesStored State.reset.cfg nineteen = 1 := by decide

/-- Both orders, with both channels full, with no batch, with no message. -/
theorem witness_IterationFrame :
    ∀ o ∈ [Order.netFirst, Order.linkFirst], isNext (exec (.poll o) busy) = true ∧
      isNext (exec (.poll o) { busy with linkRx := [] }) = true ∧
      isNext (exec (.poll o) { busy with netIn := [] }) = true := by decide

/-- A payload that sets the peer, and a reset that clears it. -/
theorem witness_OnlyAcceptedPayloadsSetThePeer :
    (nextOf (exec (.netRx ⟨2, two⟩) tinyPeer)).map (·.peerAddr) = some 2 ∧
    (nextOf (exec (.poll .netFirst) { tiny with netIn := [⟨2, []⟩] })).map (·.peerValid) = some true ∧
    (nextOf (exec .reset tinyPeer)).map (·.peerValid) = some false := by decide

theorem witness_StepKeepsConfigurationAndOutputs :
    isNext (step { busy with stimulus := [iterLine .netFirst none none] }) = true := by decide

theorem witness_IterationSendsAtMostOneEach :
    isNext (exec (.poll .netFirst) busy) = true ∧ isNext (exec (.poll .linkFirst) busy) = true := by decide

/-- An operation that logs and one that does not. -/
theorem witness_OneLogRecordPerLoggingOperation :
    isNext (exec (.netRx ⟨2, two⟩) tinyPeer) = true ∧ isNext (exec (.halfBit true) tinyPeer) = true := by decide

/-- `busy` meets the invariant, and its step answers a next state. -/
theorem witness_EveryStepKeepsTheInvariant :
    Inv { busy with stimulus := [iterLine .linkFirst none none] } ∧
    isNext (step { busy with stimulus := [iterLine .linkFirst none none] }) = true := by
  refine ⟨⟨by decide, by decide, ?_, by decide, by decide, by decide, by decide, by decide, ?_⟩, by decide⟩
  · intro j _
    exact BitVec.getLsbD_zero
  · intro o ho
    cases ho

theorem witness_DecoderRestsBetweenIterations :
    TransactionLevel { busy with stimulus := [iterLine .linkFirst none none, resetLine] } ∧
    DecoderAtRest { busy with stimulus := [iterLine .linkFirst none none, resetLine] } ∧
    isNext (step { busy with stimulus := [iterLine .linkFirst none none, resetLine] }) = true := by
  refine ⟨?_, ⟨rfl, rfl, rfl, rfl, rfl⟩, by decide⟩
  intro st hst
  rcases List.mem_cons.1 hst with rfl | hst
  · exact .inr ⟨_, rfl⟩
  · rcases List.mem_cons.1 hst with rfl | hst
    · exact .inl rfl
    · cases hst

end Sys2Proof.Tests
end

section
/-! PROOFS. The scope of the model (00_scope.md): which configurations it gives a meaning to (R8). -/

namespace Sys2Proof.Machine

/-! ### The guard every operation shares -/

/-- Under a configuration that is not legal the guard refuses, whatever it guards. -/
theorem whenSelected_configNotLegal (i : Instr) (s : State) (o : Host.Outcome State Fault Refusal)
    (hc : cfgLegal s.cfg = false) : whenSelected i s o = .refused .configNotLegal := by
  simp [whenSelected, hc]

/-- Every operation stands behind the shared guard, so what the guard answers holds of every operation. -/
theorem exec_eq_whenSelected (i : Instr) (s : State) : ∃ o, exec i s = whenSelected i s o := by
  cases i <;> exact ⟨_, rfl⟩

theorem exec_configNotLegal (i : Instr) (s : State) (hc : cfgLegal s.cfg = false) :
    exec i s = .refused .configNotLegal := by
  obtain ⟨o, ho⟩ := exec_eq_whenSelected i s
  rw [ho, whenSelected_configNotLegal i s o hc]

/-! ### O3 -/

/-- Settles O3: a configuration that fails a line of `cfg_ok` is not legal, so the guard every operation stands
behind refuses it. -/
theorem configurationFailingCfgOkIsRefused : Obligations.ConfigurationFailingCfgOkIsRefused := by
  refine ⟨fun i s hbad => exec_configNotLegal i s (Bool.eq_false_iff.mpr fun hlegal => hbad ?_), by decide⟩
  obtain ⟨-, hshort, hlong, hapart, ⟨htxMin, htxMax⟩, hfits, hframe, hpayload⟩ := (cfgLegal_iff s.cfg).mp hlegal
  exact ⟨hshort, hlong, hapart, htxMin, htxMax, hfits, hframe, hpayload⟩

end Sys2Proof.Machine
end

section
/-! PROOFS. The encoder (40_encoder.md): its pulses by index, and what its three operations answer (R80 to R82). -/

namespace Sys2Proof.Machine

/-! ### Pulses by index -/

/-- Where every element of a list gives a block of `n` entries, the blocks together hold `n` entries an element. -/
theorem length_flatMap_of_length_eq {α β : Type} {f : α → List β} {n : Nat} (hf : ∀ a, (f a).length = n)
    {l : List α} : (l.flatMap f).length = n * l.length := by
  simp [List.length_flatMap, hf, Nat.mul_comm]

/-- Where every element of a list gives a block of `n` entries, entry `j` of block `i` stands at `n * i + j`. -/
theorem getElem?_flatMap_of_length_eq {α β : Type} {f : α → List β} {n : Nat} (hf : ∀ a, (f a).length = n)
    {l : List α} {i j : Nat} {a : α} (hi : l[i]? = some a) (hj : j < n) :
    (l.flatMap f)[n * i + j]? = (f a)[j]? := by
  induction l generalizing i with
  | nil => simp at hi
  | cons x xs ih =>
    rw [List.flatMap_cons]
    cases i with
    | zero =>
      obtain rfl : x = a := by simpa using hi
      rw [Nat.mul_zero, Nat.zero_add, List.getElem?_append_left (by rw [hf]; exact hj)]
    | succ i =>
      have hskip : n * (i + 1) + j - n = n * i + j := by rw [Nat.mul_succ]; omega
      rw [List.getElem?_append_right (by rw [hf, Nat.mul_succ]; omega), hf, hskip]
      exact ih (by simpa using hi)

/-- The line code of a bit: its complement, then itself (R64). -/
theorem encodeBit_eq (c : Config) (b : Bool) : encodeBit c b = [⟨!b, c.txShort⟩, ⟨b, c.txShort⟩] := by
  cases b <;> rfl

@[simp] theorem length_encodeByte (c : Config) (b : Byte) : (encodeByte c b).length = 16 :=
  length_flatMap_of_length_eq fun _ => length_encodeBit c _

@[simp] theorem length_encodeBytes (c : Config) (bytes : List Byte) :
    (encodeBytes c bytes).length = 16 * bytes.length :=
  length_flatMap_of_length_eq (length_encodeByte c)

/-- The pulses of one byte are the pulses of its bits, bit 7 first (R11). -/
theorem getElem?_encodeByte (c : Config) (b : Byte) {k j : Nat} (hk : k < 8) (hj : j < 2) :
    (encodeByte c b)[2 * k + j]? = (encodeBit c (b.getLsbD (7 - k)))[j]? :=
  getElem?_flatMap_of_length_eq (fun _ => length_encodeBit c _) (List.getElem?_range hk) hj

/-- The pulses of a payload are the pulses of its bytes, in order (R43). -/
theorem getElem?_encodeBytes (c : Config) {bytes : List Byte} {i j : Nat} {b : Byte} (hi : bytes[i]? = some b)
    (hj : j < 16) : (encodeBytes c bytes)[16 * i + j]? = (encodeByte c b)[j]? :=
  getElem?_flatMap_of_length_eq (length_encodeByte c) hi hj

/-- Half `j` of bit `7 - k` of byte `i`. -/
theorem getElem?_encodeBytes_half (c : Config) {bytes : List Byte} {i k j : Nat} {b : Byte}
    (hi : bytes[i]? = some b) (hk : k < 8) (hj : j < 2) :
    (encodeBytes c bytes)[16 * i + 2 * k + j]? =
      [(⟨!b.getLsbD (7 - k), c.txShort⟩ : PulseEvent), ⟨b.getLsbD (7 - k), c.txShort⟩][j]? := by
  rw [Nat.add_assoc, getElem?_encodeBytes c hi (by omega), getElem?_encodeByte c b hk hj, encodeBit_eq]

/-! ### What the operations answer -/

theorem exec_encBit1 (s : State) (hc : cfgLegal s.cfg = true) :
    exec .encBit1 s = .next { s with result := .pulses (encBit1Pulses s.cfg) } :=
  whenSelected_eq .encBit1 s _ hc rfl

theorem exec_encBit0 (s : State) (hc : cfgLegal s.cfg = true) :
    exec .encBit0 s = .next { s with result := .pulses (encBit0Pulses s.cfg) } :=
  whenSelected_eq .encBit0 s _ hc rfl

theorem exec_encode (s : State) (bytes : List Byte) (hc : cfgLegal s.cfg = true)
    (hlen : bytes.length ≤ s.cfg.maxPayload) :
    exec (.encode bytes) s = .next { s with result := .pulses (encodeBytes s.cfg bytes) } :=
  whenSelected_eq (.encode bytes) s _ hc ((selected_iff _ s).mpr ⟨decide_eq_true hlen, rfl⟩)

/-! ### O12 and O13 -/

/-- Settles O12: the map selects both operations in every state, so each answers its own effect. -/
theorem lineCodeTable : Obligations.LineCodeTable :=
  fun s hc => ⟨exec_encBit1 s hc, exec_encBit0 s hc⟩

/-- Settles O13: the payload is encoded in blocks of 16 pulses a byte, each in blocks of 2 pulses a bit. -/
theorem encodeEmitsTwoHalfBitsPerBit : Obligations.EncodeEmitsTwoHalfBitsPerBit := by
  intro s bytes hc hlen
  refine ⟨encodeBytes s.cfg bytes, exec_encode s bytes hc hlen, length_encodeBytes s.cfg bytes, ?_⟩
  intro i k b hi hk
  exact ⟨getElem?_encodeBytes_half s.cfg hi hk (j := 0) (by decide),
    getElem?_encodeBytes_half s.cfg hi hk (j := 1) (by decide)⟩

end Sys2Proof.Machine
end

section
/-! PROOFS. The decoder (41_decoder.md): the classes of a duration (R90), and what an event, a half-bit window and a
flush do to the state (R92 to R98). -/

namespace Sys2Proof.Machine

/-! ### The classes of a duration -/

theorem classify_eq_short_iff (c : Config) (d : Nat) :
    classify c d = .short ↔ c.shortMin ≤ d ∧ d ≤ c.shortMax := by
  unfold classify
  split_ifs with hshort hlong
  · simp [hshort]
  · simp [hshort]
  · simp [hshort]

/-- The short window is tried first, so the long one is read in full only where the two lie apart (R8). -/
theorem classify_eq_long_iff (c : Config) (d : Nat) (hapart : c.shortMax < c.longMin) :
    classify c d = .long ↔ c.longMin ≤ d ∧ d ≤ c.longMax := by
  unfold classify
  split_ifs with hshort hlong
  · have hnot : ¬ (c.longMin ≤ d ∧ d ≤ c.longMax) := by omega
    simp [hnot]
  · simp [hlong]
  · simp [hlong]

theorem classify_eq_noise_iff (c : Config) (d : Nat) :
    classify c d = .noise ↔
      ¬ (c.shortMin ≤ d ∧ d ≤ c.shortMax) ∧ ¬ (c.longMin ≤ d ∧ d ≤ c.longMax) := by
  unfold classify
  split_ifs with hshort hlong
  · simp [hshort]
  · simp [hlong]
  · simp [hshort, hlong]

/-! ### What the operations answer -/

theorem wfEvent_iff (c : Config) (k : PulseClass) (d : Nat) :
    wfEvent c k d = true ↔ d < 2 ^ c.durW ∧ classify c d = k := by
  simp [wfEvent, fitsDuration]

theorem exec_evNoise (s : State) (level : Bool) (d : Nat) (hc : cfgLegal s.cfg = true) (hfit : d < 2 ^ s.cfg.durW)
    (hk : classify s.cfg d = .noise) : exec (.evNoise level d) s = .next (evNoise s) :=
  whenSelected_eq (.evNoise level d) s _ hc ((selected_iff _ s).mpr ⟨(wfEvent_iff _ _ _).mpr ⟨hfit, hk⟩, rfl⟩)

theorem exec_evShort (s : State) (level : Bool) (d : Nat) (hc : cfgLegal s.cfg = true) (hacc : s.accBits ≤ 7)
    (hfit : d < 2 ^ s.cfg.durW) (hk : classify s.cfg d = .short) :
    exec (.evShort level d) s = .next (halfBit level s) :=
  whenSelected_eq (.evShort level d) s _ hc
    ((selected_iff _ s).mpr ⟨(wfEvent_iff _ _ _).mpr ⟨hfit, hk⟩, decide_eq_true hacc⟩)

theorem exec_evLong (s : State) (level : Bool) (d : Nat) (hc : cfgLegal s.cfg = true) (hacc : s.accBits ≤ 7)
    (hfit : d < 2 ^ s.cfg.durW) (hk : classify s.cfg d = .long) :
    exec (.evLong level d) s = .next (halfBit level (halfBit level s)) :=
  whenSelected_eq (.evLong level d) s _ hc
    ((selected_iff _ s).mpr ⟨(wfEvent_iff _ _ _).mpr ⟨hfit, hk⟩, decide_eq_true hacc⟩)

theorem exec_halfBit (s : State) (level : Bool) (hc : cfgLegal s.cfg = true) (hacc : s.accBits ≤ 7) :
    exec (.halfBit level) s = .next (halfBit level s) :=
  whenSelected_eq (.halfBit level) s _ hc ((selected_iff _ s).mpr ⟨rfl, decide_eq_true hacc⟩)

theorem exec_byteFlush (s : State) (hc : cfgLegal s.cfg = true) (hacc : s.accBits = 8) :
    exec .byteFlush s = .next (byteFlush s) :=
  whenSelected_eq .byteFlush s _ hc ((selected_iff _ s).mpr ⟨rfl, decide_eq_true hacc⟩)

/-! ### The flush -/

theorem byteFlush_of_room {s : State} (hroom : s.frameLen < s.cfg.frameMax) :
    byteFlush s = { s with
      frameBuf := Memory.write s.frameBuf s.frameLen s.accValue, frameLen := s.frameLen + 1,
      accValue := 0#8, accBits := 0 } := by
  rw [byteFlush, storeByte, if_pos hroom]
  rfl

theorem byteFlush_of_full {s : State} (hfull : s.cfg.frameMax ≤ s.frameLen) :
    byteFlush s = { s with
      frameTrunc := true, notes := s.notes ++ [.frameOverflow], accValue := 0#8, accBits := 0 } := by
  rw [byteFlush, storeByte, if_neg (Nat.not_lt.mpr hfull)]
  rfl

@[simp] theorem byteFlush_accBits (s : State) : (byteFlush s).accBits = 0 := rfl

/-! ### The half-bit window -/

theorem resolve_of_lt {s : State} (level : Bool) (hacc : s.accBits < 7) : resolve level s = appendBit level s :=
  if_neg (by omega)

theorem resolve_of_eighth {s : State} (level : Bool) (hacc : s.accBits = 7) :
    resolve level s = byteFlush (appendBit level s) :=
  if_pos (by omega)

theorem halfBit_of_firstHalf {s : State} (level : Bool) (hp : s.phase = false) :
    halfBit level s = togglePhase s := by
  simp [halfBit, hp]

theorem halfBit_of_secondHalf {s : State} (level : Bool) (hp : s.phase = true) :
    halfBit level s = togglePhase (resolve level s) := by
  simp [halfBit, hp]

/-- `RESOLVE` writes the accumulator and the frame, never the phase. -/
@[simp] theorem resolve_phase (level : Bool) (s : State) : (resolve level s).phase = s.phase := by
  unfold resolve byteFlush storeByte
  split_ifs <;> rfl

/-- Every window toggles the phase (R95). -/
@[simp] theorem halfBit_phase (level : Bool) (s : State) : (halfBit level s).phase = !s.phase := by
  cases hp : s.phase
  · simp [halfBit_of_firstHalf level hp, hp]
  · simp [halfBit_of_secondHalf level hp, hp]

/-- `RESOLVE` counts one bit more, and the eighth empties the accumulator. -/
theorem resolve_accBits (level : Bool) {s : State} (hacc : s.accBits ≤ 7) :
    (resolve level s).accBits = (s.accBits + 1) % 8 := by
  rcases Nat.lt_or_eq_of_le hacc with hlt | heq
  · rw [resolve_of_lt level hlt, appendBit_accBits, Nat.mod_eq_of_lt (by omega)]
  · rw [resolve_of_eighth level heq, byteFlush_accBits, heq]

/-- A window counts a bit in the second half only. -/
theorem halfBit_accBits (level : Bool) {s : State} (hacc : s.accBits ≤ 7) :
    (halfBit level s).accBits = if s.phase then (s.accBits + 1) % 8 else s.accBits := by
  cases hp : s.phase
  · simp [halfBit_of_firstHalf level hp]
  · simp [halfBit_of_secondHalf level hp, resolve_accBits level hacc]

/-- A window leaves the accumulator open for the next one (10_state.md R24). -/
theorem halfBit_accBits_le (level : Bool) {s : State} (hacc : s.accBits ≤ 7) : (halfBit level s).accBits ≤ 7 := by
  rw [halfBit_accBits level hacc]
  split <;> omega

/-- Of two windows in a row one is a first half and one a second, so together they count exactly one bit. -/
theorem halfBit_halfBit_accBits (first second : Bool) {s : State} (hacc : s.accBits ≤ 7) :
    (halfBit second (halfBit first s)).accBits = (s.accBits + 1) % 8 := by
  rw [halfBit_accBits second (halfBit_accBits_le first hacc), halfBit_phase, halfBit_accBits first hacc]
  cases s.phase <;> rfl

/-! ### O17, O19 and O20 -/

/-- Settles O17: the window's four cases, by its half, the count of bits and the room in the buffer. -/
theorem halfBitWindowEffect : Obligations.HalfBitWindowEffect := by
  intro s level hc hacc
  rw [exec_halfBit s level hc hacc]
  refine ⟨fun hp => ?_, fun hp => ⟨setBit s.accValue (7 - s.accBits) level,
    fun j => setBit_getLsbD _ _ j _ (by omega), fun hlt => ?_, fun heq hroom => ?_, fun heq hfull => ?_⟩⟩
  · rw [halfBit_of_firstHalf level hp, togglePhase, hp]; rfl
  · rw [halfBit_of_secondHalf level hp, resolve_of_lt level hlt, togglePhase, appendBit_phase, hp]; rfl
  · rw [halfBit_of_secondHalf level hp, resolve_of_eighth level heq,
      byteFlush_of_room (s := appendBit level s) hroom, togglePhase, appendBit_phase, hp]; rfl
  · rw [halfBit_of_secondHalf level hp, resolve_of_eighth level heq,
      byteFlush_of_full (s := appendBit level s) hfull, togglePhase, appendBit_phase, hp]; rfl

/-- Settles O19: the first window leaves a state that selects the second, and the pair toggles the phase twice. -/
theorem longEventIsTwoWindows : Obligations.LongEventIsTwoWindows := by
  intro s level d hc hacc hfit hk
  have hcmid : cfgLegal (halfBit level s).cfg = true := by rw [(sameOutside_halfBit level s).cfg]; exact hc
  exact ⟨halfBit level s, halfBit level (halfBit level s), exec_halfBit s level hc hacc,
    exec_halfBit _ level hcmid (halfBit_accBits_le level hacc), exec_evLong s level d hc hacc hfit hk, by simp,
    halfBit_halfBit_accBits level level hacc⟩

/-- Settles O20: with room the buffer is the one written at `frame_len`; without, it is kept. -/
theorem byteFlushStoresOrDiscards : Obligations.ByteFlushStoresOrDiscards := by
  intro s hc hacc
  rw [exec_byteFlush s hc hacc]
  refine ⟨fun hroom => ⟨Memory.write s.frameBuf s.frameLen s.accValue, ?_, ?_, ?_⟩, fun hfull => ?_⟩
  · rw [byteFlush_of_room hroom]
  · exact Memory.read_write_same _ _ _
  · exact fun a ha => Memory.read_write_other _ _ a _ ha
  · rw [byteFlush_of_full hfull]

/-! ### O15, O16 and O18 -/

/-- Settles O15: a legal configuration keeps the two windows apart (R8), so the order of the tests does not show. -/
theorem classifyByInclusiveWindows : Obligations.ClassifyByInclusiveWindows := by
  intro c d hc
  obtain ⟨-, -, -, hapart, -⟩ := (cfgLegal_iff c).mp hc
  exact ⟨classify_eq_short_iff c d, classify_eq_long_iff c d hapart, classify_eq_noise_iff c d⟩

/-- Settles O16: the map selects a noise event in every state, and its only effect is the note. -/
theorem noiseEventChangesNothing : Obligations.NoiseEventChangesNothing :=
  fun s level d hc hfit hk => exec_evNoise s level d hc hfit hk

/-- Settles O18: both operations run the same window, which does not read the duration. -/
theorem shortEventIsOneWindow : Obligations.ShortEventIsOneWindow :=
  fun s level d hc hacc hfit hk => ⟨halfBit level s, exec_evShort s level d hc hacc hfit hk,
    exec_halfBit s level hc hacc, halfBit_phase level s⟩

end Sys2Proof.Machine
end

section
/-! PROOFS. The frame boundary (42_frame.md): the end of a batch on its own (R112). -/

namespace Sys2Proof.Machine

/-! ### The end of a batch -/

/-- A note under a condition, as one list. -/
theorem noteIf_decide_eq (p : Prop) [Decidable p] (k : Condition) (s : State) :
    noteIf (decide p) k s = { s with notes := s.notes ++ if p then [k] else [] } := by
  by_cases hp : p
  · simp [noteIf_eq, hp]
  · simp [noteIf_eq, hp]

/-- K2 is noted before K8; the note of K2 does not touch the length K8 is decided by. -/
theorem endOfBatch_eq (s : State) :
    endOfBatch s = { s with
      phase := false, accValue := 0#8, accBits := 0, frameLen := 0, frameTrunc := false,
      notes := s.notes ++ (if s.accBits ≠ 0 then [.truncatedFrame] else [])
        ++ (if s.frameLen = 0 then [.emptyFrame] else []) } := by
  rw [endOfBatch, noteIf_decide_eq, noteIf_decide_eq]
  rfl

/-- The operation map asks for an open accumulator; the reserved bits only have to fit their field (R74). -/
theorem exec_evEob (s : State) (reserved : Nat) (hc : cfgLegal s.cfg = true) (hacc : s.accBits ≤ 7)
    (hfit : reserved < 2 ^ (s.cfg.durW + 1)) :
    exec (.evEob reserved) s = .next { endOfBatch s with result := .frame (frameRecordOf s) } :=
  whenSelected_eq (.evEob reserved) s _ hc
    ((selected_iff _ s).mpr ⟨decide_eq_true hfit, decide_eq_true hacc⟩)

/-! ### O28 -/

/-- Settles O28: the record is read from the state before the reset, its bytes being the first `frame_len` of the
buffer. -/
theorem endOfBatchReturnsTheRecord : Obligations.EndOfBatchReturnsTheRecord := by
  intro s reserved hc hacc hfit
  refine ⟨frameRecordOf s, ?_, Memory.firstBytes_length s.frameBuf s.frameLen,
    Memory.firstBytes_get s.frameBuf s.frameLen, rfl, rfl⟩
  rw [exec_evEob s reserved hc hacc hfit, endOfBatch_eq]

end Sys2Proof.Machine
end

section
/-! PROOFS. The bridge (43_bridge.md): its three network operations (R122 to R124) and its three frame operations
(R127 to R129). -/

namespace Sys2Proof.Machine

/-! ### Which operands the operation map takes -/

theorem fitsPeer_iff (c : Config) (p : Nat) : fitsPeer c p = true ↔ p < 2 ^ c.peerW := by
  simp [fitsPeer]

theorem wf_netRx_iff (c : Config) (m : NetMessage) :
    (Instr.netRx m).wf c = true ↔
      m.sender < 2 ^ c.peerW ∧ 1 ≤ m.payload.length ∧ m.payload.length ≤ c.maxPayload := by
  simp [Instr.wf, fitsPeer_iff, and_assoc]

theorem wf_netRxOversize_iff (c : Config) (m : NetMessage) :
    (Instr.netRxOversize m).wf c = true ↔ m.sender < 2 ^ c.peerW ∧ c.maxPayload < m.payload.length := by
  simp [Instr.wf, fitsPeer_iff]

/-- The non-empty records of R72: truncated only with the buffer full. -/
theorem wfFrame_nonEmpty_iff (c : Config) (fr : FrameRecord) :
    wfFrame c true fr = true ↔
      fr.bytes.length ≤ c.frameMax ∧ fr.residualBits ≤ 7 ∧
        (fr.truncated = true → fr.bytes.length = c.frameMax) ∧ 1 ≤ fr.bytes.length := by
  cases htrunc : fr.truncated
  · simp [wfFrame, isFrameRecord, htrunc, and_assoc]
  · simp [wfFrame, isFrameRecord, htrunc, and_assoc]

/-! ### What a log record adds to the outputs -/

/-- The record stands after the message it goes with (R134). -/
theorem emitLog_emit_eq (d : Direction) (o : LogOutcome) (payload : List Byte) (x : Output) (s : State) :
    emitLog d o payload (emit x s) = { s with
      out := s.out ++ [x, .logOut ⟨d, o, payload.length, payload.take s.cfg.previewLen⟩] } := by
  simp [emitLog, emit, preview]

theorem netRx_eq (m : NetMessage) (s : State) :
    netRx m s = { s with
      peerAddr := m.sender, peerValid := true,
      out := s.out ++ [.linkTx ((encodeBytes s.cfg m.payload).map (pevWord s.cfg)),
        .logOut ⟨.netToLink, .forwarded, m.payload.length, m.payload.take s.cfg.previewLen⟩] } :=
  emitLog_emit_eq _ _ _ _ (recordPeer m.sender s)

/-- `NET_RX_EMPTY` is `NET_RX` at the payload of no bytes (R124). -/
theorem netRxEmpty_eq_netRx (sender : Nat) (s : State) : netRxEmpty sender s = netRx ⟨sender, []⟩ s := rfl

theorem forward_eq (o : LogOutcome) (fr : FrameRecord) (s : State) :
    forward o fr s = { s with
      out := s.out ++ [.netOut s.peerAddr fr.bytes,
        .logOut ⟨.linkToNet, o, fr.bytes.length, fr.bytes.take s.cfg.previewLen⟩] } :=
  emitLog_emit_eq _ _ _ _ s

/-! ### What the operations answer -/

theorem exec_netRx (s : State) (m : NetMessage) (hc : cfgLegal s.cfg = true)
    (hwf : (Instr.netRx m).wf s.cfg = true) : exec (.netRx m) s = .next (netRx m s) :=
  whenSelected_eq (.netRx m) s _ hc ((selected_iff _ s).mpr ⟨hwf, rfl⟩)

theorem exec_netRxEmpty (s : State) (sender : Nat) (hc : cfgLegal s.cfg = true) (hfit : sender < 2 ^ s.cfg.peerW) :
    exec (.netRxEmpty sender) s = .next (netRxEmpty sender s) :=
  whenSelected_eq (.netRxEmpty sender) s _ hc ((selected_iff _ s).mpr ⟨(fitsPeer_iff _ _).mpr hfit, rfl⟩)

theorem exec_netRxOversize (s : State) (m : NetMessage) (hc : cfgLegal s.cfg = true)
    (hwf : (Instr.netRxOversize m).wf s.cfg = true) : exec (.netRxOversize m) s = .next (netRxOversize m s) :=
  whenSelected_eq (.netRxOversize m) s _ hc ((selected_iff _ s).mpr ⟨hwf, rfl⟩)

theorem exec_frameFwd (s : State) (fr : FrameRecord) (hc : cfgLegal s.cfg = true)
    (hwf : wfFrame s.cfg true fr = true) (htrunc : fr.truncated = false) (hpeer : s.peerValid = true) :
    exec (.frameFwd fr) s = .next (forward .forwarded fr s) :=
  whenSelected_eq (.frameFwd fr) s _ hc ((selected_iff _ s).mpr ⟨by simp [Instr.wf, hwf, htrunc], hpeer⟩)

theorem exec_frameFwdTrunc (s : State) (fr : FrameRecord) (hc : cfgLegal s.cfg = true)
    (hwf : wfFrame s.cfg true fr = true) (htrunc : fr.truncated = true) (hpeer : s.peerValid = true) :
    exec (.frameFwdTrunc fr) s = .next (forward .forwardedTruncated fr s) :=
  whenSelected_eq (.frameFwdTrunc fr) s _ hc ((selected_iff _ s).mpr ⟨by simp [Instr.wf, hwf, htrunc], hpeer⟩)

theorem exec_frameDrop (s : State) (fr : FrameRecord) (hc : cfgLegal s.cfg = true)
    (hwf : wfFrame s.cfg true fr = true) (hpeer : s.peerValid = false) :
    exec (.frameDrop fr) s = .next (frameDrop fr s) :=
  whenSelected_eq (.frameDrop fr) s _ hc ((selected_iff _ s).mpr ⟨hwf, by simp [stateSelects, hpeer]⟩)

/-! ### O32, O33 and O34 -/

/-- Settles O32: the length bounds are those the operation map asks of an accepted payload. -/
theorem acceptedPayloadIsEncodedAndLogged : Obligations.AcceptedPayloadIsEncodedAndLogged := by
  intro s m hc hfit hpos hmax
  rw [exec_netRx s m hc ((wf_netRx_iff _ _).mpr ⟨hfit, hpos, hmax⟩), netRx_eq]

/-- Settles O33: the payload of no bytes encodes to no pulses, and its preview is empty at every length. -/
theorem emptyPayloadIsAccepted : Obligations.EmptyPayloadIsAccepted := by
  intro s sender hc hfit
  rw [exec_netRxEmpty s sender hc hfit, netRxEmpty_eq_netRx, netRx_eq, encodeBytes_nil, List.take_nil]
  rfl

/-- Settles O34: the rejection notes K6 and logs; the record is the only output. -/
theorem oversizePayloadIsRejectedAndLogged : Obligations.OversizePayloadIsRejectedAndLogged := by
  intro s m hc hfit hover
  rw [exec_netRxOversize s m hc ((wf_netRxOversize_iff _ _).mpr ⟨hfit, hover⟩)]
  rfl

/-! ### O35, O36 and O37 -/

/-- Settles O35: an untruncated record need not fill the buffer. -/
theorem frameIsForwardedToThePeer : Obligations.FrameIsForwardedToThePeer := by
  intro s fr hc hpos hmax hres htrunc hpeer
  have hwf : wfFrame s.cfg true fr = true :=
    (wfFrame_nonEmpty_iff _ _).mpr ⟨hmax, hres, by simp [htrunc], hpos⟩
  rw [exec_frameFwd s fr hc hwf htrunc hpeer, forward_eq]

/-- Settles O36: a truncated record fills the buffer, which holds at least one byte (R8), so it is not empty. -/
theorem truncatedFrameIsForwardedAndMarked : Obligations.TruncatedFrameIsForwardedAndMarked := by
  intro s fr hc hfull hres htrunc hpeer
  obtain ⟨-, -, -, -, -, -, hframe, -⟩ := (cfgLegal_iff s.cfg).mp hc
  have hwf : wfFrame s.cfg true fr = true :=
    (wfFrame_nonEmpty_iff _ _).mpr ⟨hfull.le, hres, fun _ => hfull, hfull ▸ hframe⟩
  rw [exec_frameFwdTrunc s fr hc hwf htrunc hpeer, forward_eq]

/-- Settles O37: without a peer the drop is selected whether the record is truncated or not. -/
theorem frameWithoutPeerIsDroppedAndLogged : Obligations.FrameWithoutPeerIsDroppedAndLogged := by
  intro s fr hc hpos hmax hres htrunc hpeer
  rw [exec_frameDrop s fr hc ((wfFrame_nonEmpty_iff _ _).mpr ⟨hmax, hres, htrunc, hpos⟩) hpeer]
  rfl

end Sys2Proof.Machine
end

section
/-! PROOFS. Reset (70_reset_and_hazards.md R160): what it writes and what it leaves. -/

namespace Sys2Proof.Machine

/-- The decoder's part is `BATCH_START`; reset adds only that no peer is known and that it was applied (log 10). -/
theorem resetCore_eq (s : State) :
    resetCore s = { s with
      phase := false, accValue := 0#8, accBits := 0, frameLen := 0, frameTrunc := false,
      peerValid := false, booted := true } := rfl

theorem exec_reset (s : State) (hc : cfgLegal s.cfg = true) : exec .reset s = .next (resetCore s) :=
  whenSelected_eq .reset s _ hc rfl

/-- Settles O1: the operation map selects reset in every state, so under a legal configuration it always runs. -/
theorem resetWritesItsValuesOnly : Obligations.ResetWritesItsValuesOnly := by
  intro s hc
  rw [exec_reset s hc, resetCore_eq]

end Sys2Proof.Machine
end

section
/-! PROOFS. The encodings (30_encoding.md): the words of an event and of a batch, read and written (R61 to R63, R74),
and the operation map as the inverse of the encoder (R73). -/

namespace Sys2Proof.Machine

/-! ### One beat -/

theorem fitsDuration_iff (c : Config) (d : Nat) : fitsDuration c d = true ↔ d < 2 ^ c.durW := by
  simp [fitsDuration]

theorem fitsBeat_iff (c : Config) (w : Nat) : fitsBeat c w = true ↔ w < 2 ^ (c.durW + 2) := by
  simp [fitsBeat]

theorem durationOf_lt (c : Config) (w : Nat) : durationOf c w < 2 ^ c.durW :=
  Nat.mod_lt _ (Nat.two_pow_pos _)

theorem reservedOf_lt (c : Config) (w : Nat) : reservedOf c w < 2 ^ (c.durW + 1) :=
  Nat.mod_lt _ (Nat.two_pow_pos _)

/-- A word is the bits below a place and the bits from it on. -/
theorem mul_add_fieldOf_zero (w n : Nat) : w / 2 ^ n * 2 ^ n + fieldOf w 0 n = w := by
  rw [fieldOf, pow_zero, Nat.div_one, Nat.mul_comm]
  exact Nat.div_add_mod w (2 ^ n)

/-- A one-bit field, as the flag it is read as. -/
theorem fieldOf_one_eq_toNat (w lo : Nat) : fieldOf w lo 1 = (fieldOf w lo 1 == 1).toNat := by
  rcases Nat.mod_two_eq_zero_or_one (w / 2 ^ lo) with h | h <;> simp [fieldOf, h]

/-- The marker is the top bit of a beat (R62). -/
theorem eobOf_eq_true_iff {c : Config} {w : Nat} (hfit : fitsBeat c w = true) :
    eobOf c w = true ↔ w / 2 ^ (c.durW + 1) = 1 := by
  have hq : w / 2 ^ (c.durW + 1) < 2 :=
    Nat.div_lt_of_lt_mul (by rw [← pow_succ]; exact (fitsBeat_iff c w).mp hfit)
  simp [eobOf, fieldOf, Nat.mod_eq_of_lt hq]

/-- A beat without the marker is a `PEV` word (R61). -/
theorem lt_of_eobOf_eq_false {c : Config} {w : Nat} (hfit : fitsBeat c w = true) (heob : eobOf c w = false) :
    w < 2 ^ (c.durW + 1) := by
  have hw := (fitsBeat_iff c w).mp hfit
  have hne : w / 2 ^ (c.durW + 1) ≠ 1 := fun h => by simp [(eobOf_eq_true_iff hfit).mpr h] at heob
  rw [pow_succ _ (c.durW + 1)] at hw
  have hle : w / 2 ^ (c.durW + 1) ≤ 1 := Nat.le_of_lt_succ (Nat.div_lt_of_lt_mul hw)
  exact (Nat.div_eq_zero_iff_lt (Nat.two_pow_pos _)).mp (Nat.lt_one_iff.mp (hle.lt_of_ne hne))

/-- A beat without the marker is the word of the event it carries. -/
theorem pevWord_eventOf {c : Config} {w : Nat} (hfit : fitsBeat c w = true) (heob : eobOf c w = false) :
    pevWord c (eventOf c w) = w := by
  have hq : w / 2 ^ c.durW < 2 :=
    Nat.div_lt_of_lt_mul (by rw [← pow_succ]; exact lt_of_eobOf_eq_false hfit heob)
  have hlevel : (levelOf c w).toNat = w / 2 ^ c.durW := by
    rw [levelOf, ← fieldOf_one_eq_toNat, fieldOf, pow_one, Nat.mod_eq_of_lt hq]
  rw [pevWord, eventOf, hlevel]
  exact mul_add_fieldOf_zero w c.durW

/-- A beat with the marker is the marker's word over its reserved bits. -/
theorem eobWord_reservedOf {c : Config} {w : Nat} (hfit : fitsBeat c w = true) (heob : eobOf c w = true) :
    eobWord c (reservedOf c w) = w := by
  have hsplit := mul_add_fieldOf_zero w (c.durW + 1)
  rwa [(eobOf_eq_true_iff hfit).mp heob, Nat.one_mul] at hsplit

theorem decodeBeat_pevWord (c : Config) (e : PulseEvent) (h : e.duration < 2 ^ c.durW) :
    decodeBeat c (pevWord c e) = .ok (eventInstr c e) := by
  simp [decodeBeat, fitsBeat_pevWord c e h, eobOf_pevWord c e h, eventOf_pevWord c e h]

theorem decodeBeat_eobWord (c : Config) (r : Nat) (h : r < 2 ^ (c.durW + 1)) :
    decodeBeat c (eobWord c r) = .ok (.evEob r) := by
  simp [decodeBeat, fitsBeat_eobWord c r h, eobOf_eobWord c r h, reservedOf_eobWord c r h]

/-- Everything a beat can decode to: the end of the batch, or its event. -/
theorem decodeBeat_eq_ok {c : Config} {w : Nat} {i : Instr} (h : decodeBeat c w = .ok i) :
    fitsBeat c w = true ∧
      (eobOf c w = true ∧ i = .evEob (reservedOf c w) ∨ eobOf c w = false ∧ i = eventInstr c (eventOf c w)) := by
  unfold decodeBeat at h
  split_ifs at h with hfit heob
  · exact ⟨hfit, .inl ⟨heob, (Except.ok.inj h).symm⟩⟩
  · exact ⟨hfit, .inr ⟨Bool.eq_false_iff.mpr heob, (Except.ok.inj h).symm⟩⟩

/-! ### The operation of an event -/

theorem eventInstr_of_short {c : Config} {e : PulseEvent} (h : classify c e.duration = .short) :
    eventInstr c e = .evShort e.level e.duration := by
  simp [eventInstr, h]

theorem eventInstr_of_long {c : Config} {e : PulseEvent} (h : classify c e.duration = .long) :
    eventInstr c e = .evLong e.level e.duration := by
  simp [eventInstr, h]

theorem eventInstr_of_noise {c : Config} {e : PulseEvent} (h : classify c e.duration = .noise) :
    eventInstr c e = .evNoise e.level e.duration := by
  simp [eventInstr, h]

/-- The encoder writes the word of the event, whatever its class. -/
theorem encode_eventInstr (c : Config) (e : PulseEvent) : encode c (eventInstr c e) = .beat (pevWord c e) := by
  cases h : classify c e.duration
  · rw [eventInstr_of_short h]; rfl
  · rw [eventInstr_of_long h]; rfl
  · rw [eventInstr_of_noise h]; rfl

/-- The class of its duration is the one its operation asks for, so only the width is left to check. -/
theorem wf_eventInstr_iff (c : Config) (e : PulseEvent) :
    (eventInstr c e).wf c = true ↔ e.duration < 2 ^ c.durW := by
  cases h : classify c e.duration
  · simp [eventInstr_of_short h, Instr.wf, wfEvent_iff, h]
  · simp [eventInstr_of_long h, Instr.wf, wfEvent_iff, h]
  · simp [eventInstr_of_noise h, Instr.wf, wfEvent_iff, h]

/-! ### A delivery -/

/-- Everything a delivery's first word can be where the delivery is accepted. -/
theorem decodeBatch_cons_eq_ok_iff (c : Config) (w : Nat) (ws : List Nat) (evs : List PulseEvent) :
    decodeBatch c (w :: ws) = .ok evs ↔ fitsBeat c w = true ∧
      (eobOf c w = true ∧ ws = [] ∧ evs = [] ∨
        eobOf c w = false ∧ ∃ es, decodeBatch c ws = .ok es ∧ evs = eventOf c w :: es) := by
  rw [decodeBatch]
  cases hfit : fitsBeat c w
  · simp
  · cases heob : eobOf c w
    · cases hrest : decodeBatch c ws <;> simp [eq_comm]
    · cases ws <;> simp [eq_comm]

/-- The words the encoder writes for a batch are read back as its events. -/
theorem decodeBatch_batchWords (c : Config) (evs : List PulseEvent) (h : ∀ e ∈ evs, e.duration < 2 ^ c.durW) :
    decodeBatch c (batchWords c evs) = .ok evs := by
  induction evs with
  | nil =>
    have h0 : 0 < 2 ^ (c.durW + 1) := Nat.two_pow_pos _
    exact (decodeBatch_cons_eq_ok_iff c _ _ _).mpr
      ⟨fitsBeat_eobWord c 0 h0, .inl ⟨eobOf_eobWord c 0 h0, rfl, rfl⟩⟩
  | cons e evs ih =>
    obtain ⟨he, hevs⟩ := List.forall_mem_cons.mp h
    refine (decodeBatch_cons_eq_ok_iff c _ _ _).mpr
      ⟨fitsBeat_pevWord c e he, .inr ⟨eobOf_pevWord c e he, evs, ih hevs, ?_⟩⟩
    rw [eventOf_pevWord c e he]

/-- The events of an accepted delivery have durations of `DUR_W` bits. -/
theorem duration_lt_of_decodeBatch {c : Config} {words : List Nat} {evs : List PulseEvent}
    (h : decodeBatch c words = .ok evs) : ∀ e ∈ evs, e.duration < 2 ^ c.durW := by
  induction words generalizing evs with
  | nil => cases h
  | cons w ws ih =>
    obtain ⟨-, ⟨-, -, rfl⟩ | ⟨-, es, hes, rfl⟩⟩ := (decodeBatch_cons_eq_ok_iff c w ws evs).mp h
    · simp
    · exact List.forall_mem_cons.mpr ⟨durationOf_lt c w, ih hes⟩

theorem not_wholeBatch_nil (c : Config) : ¬ WholeBatch c [] := by
  rintro ⟨body, last, h, -⟩
  simp at h

/-- A whole batch is the marker alone, or an event before a whole batch. -/
theorem wholeBatch_cons_iff (c : Config) (w : Nat) (ws : List Nat) :
    WholeBatch c (w :: ws) ↔
      fitsBeat c w = true ∧ (eobOf c w = true ∧ ws = [] ∨ eobOf c w = false ∧ WholeBatch c ws) := by
  constructor
  · rintro ⟨body, last, heq, hfit, hbody, hlast⟩
    obtain ⟨hw, hws⟩ := List.forall_mem_cons.mp hfit
    cases body with
    | nil =>
      obtain ⟨rfl, rfl⟩ : w = last ∧ ws = [] := by simpa using heq
      exact ⟨hw, .inl ⟨hlast, rfl⟩⟩
    | cons b body =>
      obtain ⟨rfl, rfl⟩ : w = b ∧ ws = body ++ [last] := by simpa using heq
      obtain ⟨hb, hbody⟩ := List.forall_mem_cons.mp hbody
      exact ⟨hw, .inr ⟨hb, body, last, rfl, hws, hbody, hlast⟩⟩
  · rintro ⟨hw, ⟨hlast, rfl⟩ | ⟨hb, body, last, rfl, hws, hbody, hlast⟩⟩
    · exact ⟨[], w, rfl, by simpa using hw, by simp, hlast⟩
    · exact ⟨w :: body, last, rfl, List.forall_mem_cons.mpr ⟨hw, hws⟩, List.forall_mem_cons.mpr ⟨hb, hbody⟩, hlast⟩

/-! ### Messages and records -/

theorem decodeNetMessage_of_fits {c : Config} {m : NetMessage} (h : m.sender < 2 ^ c.peerW) :
    decodeNetMessage c m = .ok
      (if c.maxPayload < m.payload.length then .netRxOversize m
        else if m.payload.length = 0 then .netRxEmpty m.sender else .netRx m) := by
  rw [decodeNetMessage, if_pos ((fitsPeer_iff c m.sender).mpr h)]
  split_ifs <;> rfl

theorem decodeFrame_of_isFrameRecord {c : Config} {fr : FrameRecord} (peerValid : Bool)
    (h : isFrameRecord c fr = true) :
    decodeFrame c peerValid fr = .ok
      (if fr.bytes.length = 0 then .frameSkip fr
        else if peerValid = false then .frameDrop fr
        else if fr.truncated = false then .frameFwd fr else .frameFwdTrunc fr) := by
  rw [decodeFrame, if_pos h]
  split_ifs <;> rfl

theorem wfFrame_iff (c : Config) (nonEmpty : Bool) (fr : FrameRecord) :
    wfFrame c nonEmpty fr = true ↔ isFrameRecord c fr = true ∧ decide (1 ≤ fr.bytes.length) = nonEmpty := by
  simp [wfFrame]

/-! ### O8 to O11 -/

/-- Settles O8: by operation, each row of the map read back from the words and fields the encoder writes. -/
theorem decodeOfEncodeIsTheOperation : Obligations.DecodeOfEncodeIsTheOperation := by
  intro c i hc hwf
  cases i with
  | reset => rfl
  | poll ord => rfl
  | encBit1 => rfl
  | encBit0 => rfl
  | halfBit level => rfl
  | byteFlush => rfl
  | netRx m =>
    obtain ⟨hfit, hpos, hmax⟩ := (wf_netRx_iff c m).mp hwf
    refine (decodeNetMessage_of_fits hfit).trans ?_
    rw [if_neg (by omega), if_neg (by omega)]
  | netRxEmpty sender =>
    refine (decodeNetMessage_of_fits (m := ⟨sender, []⟩) ((fitsPeer_iff c sender).mp hwf)).trans ?_
    rfl
  | netRxOversize m =>
    obtain ⟨hfit, hover⟩ := (wf_netRxOversize_iff c m).mp hwf
    refine (decodeNetMessage_of_fits hfit).trans ?_
    rw [if_pos hover]
  | encode bytes => exact if_pos (of_decide_eq_true hwf)
  | linkRx events =>
    have hfit : ∀ e ∈ events, e.duration < 2 ^ c.durW := by simpa [Instr.wf, fitsDuration_iff] using hwf
    simp only [encode, decode, decodeBatch_batchWords c events hfit]
  | evShort level d =>
    obtain ⟨hfit, hk⟩ := (wfEvent_iff c .short d).mp hwf
    exact (decodeBeat_pevWord c ⟨level, d⟩ hfit).trans (congrArg Except.ok (eventInstr_of_short hk))
  | evLong level d =>
    obtain ⟨hfit, hk⟩ := (wfEvent_iff c .long d).mp hwf
    exact (decodeBeat_pevWord c ⟨level, d⟩ hfit).trans (congrArg Except.ok (eventInstr_of_long hk))
  | evNoise level d =>
    obtain ⟨hfit, hk⟩ := (wfEvent_iff c .noise d).mp hwf
    exact (decodeBeat_pevWord c ⟨level, d⟩ hfit).trans (congrArg Except.ok (eventInstr_of_noise hk))
  | evEob reserved => exact decodeBeat_eobWord c reserved (of_decide_eq_true hwf)
  | frameFwd fr =>
    obtain ⟨hframe, htrunc⟩ : wfFrame c true fr = true ∧ fr.truncated = false := by simpa [Instr.wf] using hwf
    obtain ⟨hrec, hpos⟩ := (wfFrame_iff c true fr).mp hframe
    refine (decodeFrame_of_isFrameRecord true hrec).trans ?_
    rw [if_neg (Nat.ne_of_gt (of_decide_eq_true hpos)), if_neg nofun, if_pos htrunc]
  | frameFwdTrunc fr =>
    obtain ⟨hframe, htrunc⟩ : wfFrame c true fr = true ∧ fr.truncated = true := by simpa [Instr.wf] using hwf
    obtain ⟨hrec, hpos⟩ := (wfFrame_iff c true fr).mp hframe
    refine (decodeFrame_of_isFrameRecord true hrec).trans ?_
    rw [if_neg (Nat.ne_of_gt (of_decide_eq_true hpos)), if_neg nofun, if_neg (by simp [htrunc])]
  | frameDrop fr =>
    obtain ⟨hrec, hpos⟩ := (wfFrame_iff c true fr).mp hwf
    refine (decodeFrame_of_isFrameRecord false hrec).trans ?_
    rw [if_neg (Nat.ne_of_gt (of_decide_eq_true hpos)), if_pos rfl]
  | frameSkip fr =>
    obtain ⟨hrec, hempty⟩ := (wfFrame_iff c false fr).mp hwf
    refine (decodeFrame_of_isFrameRecord false hrec).trans ?_
    rw [if_pos (by simpa using hempty)]

/-- Settles O9: a beat is either the marker over its reserved bits or the word of its event. -/
theorem beatWordHasOneMeaning : Obligations.BeatWordHasOneMeaning := by
  intro c w i h
  obtain ⟨hfit, ⟨heob, rfl⟩ | ⟨heob, rfl⟩⟩ := decodeBeat_eq_ok h
  · exact ⟨congrArg Selector.beat (eobWord_reservedOf hfit heob), decide_eq_true (reservedOf_lt c w)⟩
  · refine ⟨?_, (wf_eventInstr_iff c _).mpr (durationOf_lt c w)⟩
    rw [encode_eventInstr, pevWord_eventOf hfit heob]

/-- Settles O10: the word is the level times `2 ^ DUR_W` plus a duration below `2 ^ DUR_W`. -/
theorem pulseEventWordLayout : Obligations.PulseEventWordLayout := by
  intro c e h
  have hbit : ∀ j, (pevWord c e).testBit j =
      if j < c.durW then e.duration.testBit j else e.level.toNat.testBit (j - c.durW) := by
    intro j
    rw [pevWord, Nat.mul_comm, Nat.testBit_two_pow_mul_add _ h]
  refine ⟨pevWord_lt c e h, durationOf_pevWord c e h, levelOf_pevWord c e h, eobOf_pevWord c e h, ?_,
    fun j hj => ?_⟩
  · rw [hbit, if_neg (lt_irrefl _), Nat.sub_self]
    cases e.level <;> rfl
  · rw [hbit, if_pos hj]

/-- Settles O11: both sides of the equivalence unfold by the first word in the same way. -/
theorem deliveryAcceptedIffWholeBatch : Obligations.DeliveryAcceptedIffWholeBatch := by
  intro c words
  induction words with
  | nil => exact iff_of_false (by rintro ⟨evs, h⟩; cases h) (not_wholeBatch_nil c)
  | cons w ws ih =>
    rw [wholeBatch_cons_iff, ← ih]
    constructor
    · rintro ⟨evs, h⟩
      obtain ⟨hfit, ⟨heob, hws, -⟩ | ⟨heob, es, hes, -⟩⟩ := (decodeBatch_cons_eq_ok_iff c w ws evs).mp h
      · exact ⟨hfit, .inl ⟨heob, hws⟩⟩
      · exact ⟨hfit, .inr ⟨heob, es, hes⟩⟩
    · rintro ⟨hfit, ⟨heob, hws⟩ | ⟨heob, es, hes⟩⟩
      · exact ⟨[], (decodeBatch_cons_eq_ok_iff c w ws _).mpr ⟨hfit, .inl ⟨heob, hws, rfl⟩⟩⟩
      · exact ⟨_, (decodeBatch_cons_eq_ok_iff c w ws _).mpr ⟨hfit, .inr ⟨heob, es, hes, rfl⟩⟩⟩

end Sys2Proof.Machine
end

section
/-! PROOFS. The encoder's derived consequences (40_encoder.md): concatenation (R83), the empty payload (R85), and the
durations of its pulses. -/

namespace Sys2Proof.Machine

/-- The payload's pulses are those of its parts, in order (R83). -/
theorem encodeBytes_append (c : Config) (xs ys : List Byte) :
    encodeBytes c (xs ++ ys) = encodeBytes c xs ++ encodeBytes c ys :=
  List.flatMap_append

/-- Every half bit is emitted at `TX_SHORT` (R64). -/
theorem duration_of_mem_encodeByte {c : Config} {b : Byte} {e : PulseEvent} (h : e ∈ encodeByte c b) :
    e.duration = c.txShort := by
  obtain ⟨k, -, hk⟩ := List.mem_flatMap.mp h
  rw [encodeBit_eq] at hk
  rcases List.mem_pair.mp hk with rfl | rfl <;> rfl

theorem duration_of_mem_encodeBytes {c : Config} {bytes : List Byte} {e : PulseEvent} (h : e ∈ encodeBytes c bytes) :
    e.duration = c.txShort := by
  obtain ⟨b, -, hb⟩ := List.mem_flatMap.mp h
  exact duration_of_mem_encodeByte hb

/-- `TX_SHORT` lies in the short window (R8). -/
theorem classify_txShort {c : Config} (hc : cfgLegal c = true) : classify c c.txShort = .short := by
  obtain ⟨-, -, -, -, htx, -⟩ := (cfgLegal_iff c).mp hc
  exact (classify_eq_short_iff c c.txShort).mpr htx

/-- A long pulse's duration fits in a word (R8). -/
theorem lt_two_pow_durW_of_le_longMax {c : Config} (hc : cfgLegal c = true) {d : Nat} (hd : d ≤ c.longMax) :
    d < 2 ^ c.durW := by
  obtain ⟨-, -, -, -, -, hmax, -⟩ := (cfgLegal_iff c).mp hc
  exact (hd.trans hmax).trans_lt (Nat.sub_lt (Nat.two_pow_pos _) Nat.one_pos)

/-- A short pulse's duration fits in a word: the short window lies below the long one (R8). -/
theorem lt_two_pow_durW_of_le_shortMax {c : Config} (hc : cfgLegal c = true) {d : Nat} (hd : d ≤ c.shortMax) :
    d < 2 ^ c.durW := by
  obtain ⟨-, -, hlong, hapart, -⟩ := (cfgLegal_iff c).mp hc
  exact lt_two_pow_durW_of_le_longMax hc (by omega)

theorem txShort_lt {c : Config} (hc : cfgLegal c = true) : c.txShort < 2 ^ c.durW := by
  obtain ⟨-, -, -, -, ⟨-, htx⟩, -⟩ := (cfgLegal_iff c).mp hc
  exact lt_two_pow_durW_of_le_shortMax hc htx

theorem duration_lt_of_mem_encodeBytes {c : Config} (hc : cfgLegal c = true) {bytes : List Byte} {e : PulseEvent}
    (h : e ∈ encodeBytes c bytes) : e.duration < 2 ^ c.durW := by
  rw [duration_of_mem_encodeBytes h]
  exact txShort_lt hc

/-- Settles O14: every pulse has duration `TX_SHORT`, and that is a short one. -/
theorem encoderConcatenatesAndEmitsShorts : Obligations.EncoderConcatenatesAndEmitsShorts := by
  intro c xs ys hc
  refine ⟨encodeBytes_append c xs ys, encodeBytes_nil c, length_encodeBytes c xs, fun e he => ?_⟩
  have hd := duration_of_mem_encodeBytes he
  exact ⟨hd, by rw [hd, classify_txShort hc]⟩

end Sys2Proof.Machine
end

section
/-! PROOFS. What an operation does (10_state.md section 2, "written by"): the effect behind the shared guard, when it
is refused, and the few shapes a next state can have. -/

namespace Sys2Proof.Machine

/-! ### The effect behind the guard -/

/-- What an operation does where the operation map selects it. -/
def effect : Instr → State → Host.Outcome State Fault Refusal
  | .reset, s => .next (resetCore s)
  | .poll ord, s => if s.booted then pollIteration ord s else .refused .notReset
  | .netRx m, s => .next (netRx m s)
  | .netRxEmpty sender, s => .next (netRxEmpty sender s)
  | .netRxOversize m, s => .next (netRxOversize m s)
  | .encode bytes, s => .next { s with result := .pulses (encodeBytes s.cfg bytes) }
  | .encBit1, s => .next { s with result := .pulses (encBit1Pulses s.cfg) }
  | .encBit0, s => .next { s with result := .pulses (encBit0Pulses s.cfg) }
  | .linkRx evs, s => .next { linkRxState evs s with result := .frame (linkRxRecord evs s) }
  | .evShort level _, s => .next (evShort level s)
  | .evLong level _, s => .next (evLong level s)
  | .evNoise _ _, s => .next (evNoise s)
  | .evEob _, s => .next { endOfBatch s with result := .frame (frameRecordOf s) }
  | .halfBit level, s => .next (halfBit level s)
  | .byteFlush, s => .next (byteFlush s)
  | .frameFwd fr, s => .next (frameFwd fr s)
  | .frameFwdTrunc fr, s => .next (frameFwdTrunc fr s)
  | .frameDrop fr, s => .next (frameDrop fr s)
  | .frameSkip _, s => .next (frameSkip s)

theorem exec_eq_effect (i : Instr) (s : State) : exec i s = whenSelected i s (effect i s) := by
  cases i <;> rfl

theorem exec_next_iff (i : Instr) (s t : State) :
    exec i s = .next t ↔
      cfgLegal s.cfg = true ∧ i.wf s.cfg = true ∧ stateSelects s i = true ∧ effect i s = .next t := by
  rw [exec_eq_effect, whenSelected_next_iff, selected_iff, and_assoc]

theorem exec_poll (s : State) (ord : Order) (hc : cfgLegal s.cfg = true) :
    exec (.poll ord) s = if s.booted then pollIteration ord s else .refused .notReset :=
  whenSelected_eq (.poll ord) s _ hc rfl

/-- A reset core under a legal configuration runs the iteration. -/
theorem exec_poll_of_booted (ord : Order) {s : State} (hc : cfgLegal s.cfg = true) (hb : s.booted = true) :
    exec (.poll ord) s = pollIteration ord s := by
  rw [exec_poll s ord hc, if_pos hb]

theorem exec_poll_next_iff (ord : Order) (s t : State) :
    exec (.poll ord) s = .next t ↔ cfgLegal s.cfg = true ∧ s.booted = true ∧ pollIteration ord s = .next t := by
  rw [exec_next_iff]
  cases hb : s.booted <;> simp [effect, hb, Instr.wf, stateSelects]

theorem exec_linkRx (s : State) (evs : List PulseEvent) (hc : cfgLegal s.cfg = true)
    (hfit : ∀ e ∈ evs, e.duration < 2 ^ s.cfg.durW) :
    exec (.linkRx evs) s = .next { linkRxState evs s with result := .frame (linkRxRecord evs s) } :=
  whenSelected_eq (.linkRx evs) s _ hc
    ((selected_iff _ s).mpr ⟨by simpa [Instr.wf, fitsDuration_iff] using hfit, rfl⟩)

theorem exec_frameSkip (s : State) (fr : FrameRecord) (hc : cfgLegal s.cfg = true)
    (hwf : wfFrame s.cfg false fr = true) : exec (.frameSkip fr) s = .next s :=
  whenSelected_eq (.frameSkip fr) s _ hc ((selected_iff _ s).mpr ⟨hwf, rfl⟩)

/-! ### Events -/

@[simp] theorem events_nil (s : State) : events [] s = s := rfl

@[simp] theorem events_cons (e : PulseEvent) (evs : List PulseEvent) (s : State) :
    events (e :: evs) s = events evs (event s e) := rfl

theorem event_of_short {s : State} {e : PulseEvent} (h : classify s.cfg e.duration = .short) :
    event s e = halfBit e.level s := by
  simp [event, h, evShort]

theorem event_of_long {s : State} {e : PulseEvent} (h : classify s.cfg e.duration = .long) :
    event s e = halfBit e.level (halfBit e.level s) := by
  simp [event, h, evLong]

theorem event_of_noise {s : State} {e : PulseEvent} (h : classify s.cfg e.duration = .noise) :
    event s e = note .noise s := by
  simp [event, h, evNoise]

/-- The operation of an event is the event's effect (R91). -/
theorem exec_eventInstr (s : State) (e : PulseEvent) (hc : cfgLegal s.cfg = true) (hacc : s.accBits ≤ 7)
    (hfit : e.duration < 2 ^ s.cfg.durW) : exec (eventInstr s.cfg e) s = .next (event s e) := by
  cases h : classify s.cfg e.duration
  · rw [eventInstr_of_short h, event_of_short h, exec_evShort s _ _ hc hacc hfit h]
  · rw [eventInstr_of_long h, event_of_long h, exec_evLong s _ _ hc hacc hfit h]
  · rw [eventInstr_of_noise h, event_of_noise h, exec_evNoise s _ _ hc hfit h, evNoise]

/-! ### Messages and records -/

theorem netDispatch_of_oversize {m : NetMessage} {s : State} (h : s.cfg.maxPayload < m.payload.length) :
    netDispatch m s = netRxOversize m s :=
  if_pos h

theorem netDispatch_of_empty {m : NetMessage} {s : State} (h : m.payload = []) :
    netDispatch m s = netRxEmpty m.sender s := by
  simp [netDispatch, h]

theorem netDispatch_of_accepted {m : NetMessage} {s : State} (hpos : 1 ≤ m.payload.length)
    (hmax : m.payload.length ≤ s.cfg.maxPayload) : netDispatch m s = netRx m s := by
  rw [netDispatch, if_neg (by omega), if_neg (by omega)]

theorem frameDispatch_of_empty {fr : FrameRecord} {s : State} (h : fr.bytes.length = 0) :
    frameDispatch fr s = s :=
  if_pos h

theorem frameDispatch_of_noPeer {fr : FrameRecord} {s : State} (hpos : 1 ≤ fr.bytes.length)
    (hpeer : s.peerValid = false) : frameDispatch fr s = frameDrop fr s := by
  rw [frameDispatch, if_neg (by omega), if_pos hpeer]

theorem frameDispatch_of_whole {fr : FrameRecord} {s : State} (hpos : 1 ≤ fr.bytes.length)
    (hpeer : s.peerValid = true) (htrunc : fr.truncated = false) : frameDispatch fr s = frameFwd fr s := by
  rw [frameDispatch, if_neg (by omega), if_neg (by simp [hpeer]), if_pos htrunc]

theorem frameDispatch_of_truncated {fr : FrameRecord} {s : State} (hpos : 1 ≤ fr.bytes.length)
    (hpeer : s.peerValid = true) (htrunc : fr.truncated = true) : frameDispatch fr s = frameFwdTrunc fr s := by
  rw [frameDispatch, if_neg (by omega), if_neg (by simp [hpeer]), if_neg (by simp [htrunc])]

/-- Everything a message can select (R121). -/
theorem decodeNetMessage_eq_ok {c : Config} {m : NetMessage} {i : Instr} (h : decodeNetMessage c m = .ok i) :
    m.sender < 2 ^ c.peerW ∧
      (c.maxPayload < m.payload.length ∧ i = .netRxOversize m ∨
        m.payload = [] ∧ i = .netRxEmpty m.sender ∨
        (1 ≤ m.payload.length ∧ m.payload.length ≤ c.maxPayload) ∧ i = .netRx m) := by
  unfold decodeNetMessage at h
  split_ifs at h with hfit hover hempty <;> cases h <;> refine ⟨(fitsPeer_iff c m.sender).mp hfit, ?_⟩
  · exact .inl ⟨hover, rfl⟩
  · exact .inr (.inl ⟨List.length_eq_zero_iff.mp hempty, rfl⟩)
  · exact .inr (.inr ⟨⟨by omega, by omega⟩, rfl⟩)

/-- Everything a frame record can select (R126). -/
theorem decodeFrame_eq_ok {c : Config} {peerValid : Bool} {fr : FrameRecord} {i : Instr}
    (h : decodeFrame c peerValid fr = .ok i) :
    isFrameRecord c fr = true ∧
      (fr.bytes.length = 0 ∧ i = .frameSkip fr ∨
        1 ≤ fr.bytes.length ∧
          (peerValid = false ∧ i = .frameDrop fr ∨
            peerValid = true ∧ fr.truncated = false ∧ i = .frameFwd fr ∨
            peerValid = true ∧ fr.truncated = true ∧ i = .frameFwdTrunc fr)) := by
  unfold decodeFrame at h
  split_ifs at h with hrec hempty hpeer htrunc <;> cases h <;> refine ⟨hrec, ?_⟩
  · exact .inl ⟨hempty, rfl⟩
  · exact .inr ⟨by omega, .inl ⟨hpeer, rfl⟩⟩
  · exact .inr ⟨by omega, .inr (.inl ⟨Bool.eq_true_of_not_eq_false hpeer, htrunc, rfl⟩)⟩
  · exact .inr ⟨by omega, .inr (.inr ⟨Bool.eq_true_of_not_eq_false hpeer, Bool.eq_true_of_not_eq_false htrunc, rfl⟩)⟩

/-- The operation a message selects is what the bridge does with it. -/
theorem exec_of_decodeNetMessage {s : State} {m : NetMessage} {i : Instr} (hc : cfgLegal s.cfg = true)
    (h : decodeNetMessage s.cfg m = .ok i) : exec i s = .next (netDispatch m s) := by
  obtain ⟨hfit, ⟨hover, rfl⟩ | ⟨hempty, rfl⟩ | ⟨⟨hpos, hmax⟩, rfl⟩⟩ := decodeNetMessage_eq_ok h
  · rw [netDispatch_of_oversize hover, exec_netRxOversize s m hc ((wf_netRxOversize_iff _ _).mpr ⟨hfit, hover⟩)]
  · rw [netDispatch_of_empty hempty, exec_netRxEmpty s m.sender hc hfit]
  · rw [netDispatch_of_accepted hpos hmax, exec_netRx s m hc ((wf_netRx_iff _ _).mpr ⟨hfit, hpos, hmax⟩)]

/-- The operation a frame record selects is what the bridge does with it. -/
theorem exec_of_decodeFrame {s : State} {fr : FrameRecord} {i : Instr} (hc : cfgLegal s.cfg = true)
    (h : decodeFrame s.cfg s.peerValid fr = .ok i) : exec i s = .next (frameDispatch fr s) := by
  obtain ⟨hrec, ⟨hempty, rfl⟩ | ⟨hpos, hcase⟩⟩ := decodeFrame_eq_ok h
  · rw [frameDispatch_of_empty hempty,
      exec_frameSkip s fr hc ((wfFrame_iff _ _ _).mpr ⟨hrec, by simp [hempty]⟩)]
  · have hwf : wfFrame s.cfg true fr = true := (wfFrame_iff _ _ _).mpr ⟨hrec, decide_eq_true hpos⟩
    obtain ⟨hpeer, rfl⟩ | ⟨hpeer, htrunc, rfl⟩ | ⟨hpeer, htrunc, rfl⟩ := hcase
    · rw [frameDispatch_of_noPeer hpos hpeer, exec_frameDrop s fr hc hwf hpeer]
    · rw [frameDispatch_of_whole hpos hpeer htrunc, exec_frameFwd s fr hc hwf htrunc hpeer, frameFwd]
    · rw [frameDispatch_of_truncated hpos hpeer htrunc, exec_frameFwdTrunc s fr hc hwf htrunc hpeer,
        frameFwdTrunc]

/-! ### The shapes of a next state -/

/-- The part of the core an operation belongs to (R73). -/
inductive Part where
  | reset
  | iteration
  | network
  | encoder
  | decoder
  | frame

/-- The part each row of the operation map stands in. -/
def partOf : Instr → Part
  | .reset => .reset
  | .poll _ => .iteration
  | .netRx _ | .netRxEmpty _ | .netRxOversize _ => .network
  | .encode _ | .encBit1 | .encBit0 => .encoder
  | .linkRx _ | .evShort _ _ | .evLong _ _ | .evNoise _ _ | .evEob _ | .halfBit _ | .byteFlush => .decoder
  | .frameFwd _ | .frameFwdTrunc _ | .frameDrop _ | .frameSkip _ => .frame

/-- What the decoder's operations keep: everything outside the decoder, and the ranges of its own fields. -/
structure DecoderStep (s t : State) : Prop where
  outside : SameOutsideDecoder s t
  range : DecoderRange s → DecoderRange t
  buffer : BufferOk s → BufferOk t

/-- What an operation that answers a next state has done, by the part of the core it belongs to. -/
inductive Runs (s : State) : Instr → State → Prop where
  | reset : Runs s .reset (resetCore s)
  | iteration {ord : Order} {t : State} (h : pollIteration ord s = .next t) : Runs s (.poll ord) t
  | network {i : Instr} {m : NetMessage} (h : decodeNetMessage s.cfg m = .ok i) : Runs s i (netDispatch m s)
  | encoder {i : Instr} (h : partOf i = .encoder) (r : Returned) : Runs s i { s with result := r }
  | decoder {i : Instr} {t : State} (h : partOf i = .decoder) (hstep : DecoderStep s t) : Runs s i t
  | frame {i : Instr} {fr : FrameRecord} (h : decodeFrame s.cfg s.peerValid fr = .ok i) :
      Runs s i (frameDispatch fr s)

theorem decoderStep_halfBit (level : Bool) (s : State) : DecoderStep s (halfBit level s) :=
  ⟨sameOutside_halfBit level s, decoderRange_halfBit level s, bufferOk_halfBit level s⟩

theorem DecoderStep.trans {s t u : State} (h : DecoderStep s t) (k : DecoderStep t u) : DecoderStep s u :=
  ⟨h.outside.trans k.outside, k.range ∘ h.range, k.buffer ∘ h.buffer⟩

theorem decoderStep_note (k : Condition) (s : State) : DecoderStep s (note k s) :=
  ⟨sameOutside_note k s, fun h => ⟨h.accBits, h.accClear, h.frameLen, h.frameTrunc⟩, id⟩

theorem decoderStep_byteFlush (s : State) : DecoderStep s (byteFlush s) :=
  ⟨sameOutside_byteFlush s, fun h => decoderRange_byteFlush s h.frameLen h.frameTrunc, bufferOk_byteFlush s⟩

theorem decoderStep_endOfBatch (s : State) : DecoderStep s (endOfBatch s) :=
  ⟨sameOutside_endOfBatch s, fun _ => decoderRange_batchStart _, fun h => by
    rw [BufferOk, endOfBatch_frameBuf, (sameOutside_endOfBatch s).cfg]; exact h⟩

theorem decoderStep_batchDecoded (evs : List PulseEvent) (s : State) : DecoderStep s (batchDecoded evs s) :=
  ⟨sameOutside_batchDecoded evs s, fun _ => decoderRange_batchDecoded evs s, bufferOk_events evs (batchStart s)⟩

theorem decoderStep_linkRxState (evs : List PulseEvent) (s : State) : DecoderStep s (linkRxState evs s) :=
  (decoderStep_batchDecoded evs s).trans (decoderStep_endOfBatch _)

/-- A returned value stands outside what the decoder's operations are said to keep (log 8). -/
theorem DecoderStep.withResult {s t : State} (h : DecoderStep s t) (r : Returned) :
    DecoderStep s { t with result := r } :=
  ⟨⟨h.outside.cfg, h.outside.peerValid, h.outside.peerAddr, h.outside.netIn, h.outside.linkRx, h.outside.out,
      h.outside.stimulus, h.outside.drawCount, h.outside.booted⟩,
    fun hr => ⟨(h.range hr).accBits, (h.range hr).accClear, (h.range hr).frameLen, (h.range hr).frameTrunc⟩,
    h.buffer⟩

theorem runs_of_decodeNetMessage {s t : State} {m : NetMessage} {i : Instr} (h : exec i s = .next t)
    (hc : cfgLegal s.cfg = true) (hd : decodeNetMessage s.cfg m = .ok i) : Runs s i t := by
  rw [exec_of_decodeNetMessage hc hd] at h
  cases h
  exact .network hd

theorem runs_of_decodeFrame {s t : State} {fr : FrameRecord} {i : Instr} {known : Bool} (h : exec i s = .next t)
    (hc : cfgLegal s.cfg = true) (hpeer : s.peerValid = known) (hd : decodeFrame s.cfg known fr = .ok i) :
    Runs s i t := by
  subst hpeer
  rw [exec_of_decodeFrame hc hd] at h
  cases h
  exact .frame hd

/-- Every next state an operation answers has one of the six shapes. -/
theorem runs_of_exec {i : Instr} {s t : State} (h : exec i s = .next t) : Runs s i t := by
  obtain ⟨hc, hwf, hsel, heff⟩ := (exec_next_iff i s t).mp h
  have hback := decodeOfEncodeIsTheOperation s.cfg i hc hwf
  cases i with
  | reset => cases heff; exact .reset
  | poll ord =>
    obtain ⟨-, -, hpoll⟩ := (exec_poll_next_iff ord s t).mp h
    exact .iteration hpoll
  | netRx m => exact runs_of_decodeNetMessage h hc hback
  | netRxEmpty sender => exact runs_of_decodeNetMessage h hc hback
  | netRxOversize m => exact runs_of_decodeNetMessage h hc hback
  | encode bytes => cases heff; exact .encoder rfl _
  | encBit1 => cases heff; exact .encoder rfl _
  | encBit0 => cases heff; exact .encoder rfl _
  | linkRx evs => cases heff; exact .decoder rfl ((decoderStep_linkRxState evs s).withResult _)
  | evShort level d => cases heff; exact .decoder rfl (decoderStep_halfBit level s)
  | evLong level d =>
    cases heff
    exact .decoder rfl ((decoderStep_halfBit level s).trans (decoderStep_halfBit level _))
  | evNoise level d => cases heff; exact .decoder rfl (decoderStep_note .noise s)
  | evEob reserved => cases heff; exact .decoder rfl ((decoderStep_endOfBatch s).withResult _)
  | halfBit level => cases heff; exact .decoder rfl (decoderStep_halfBit level s)
  | byteFlush => cases heff; exact .decoder rfl (decoderStep_byteFlush s)
  | frameFwd fr => exact runs_of_decodeFrame h hc hsel hback
  | frameFwdTrunc fr => exact runs_of_decodeFrame h hc hsel hback
  | frameDrop fr => exact runs_of_decodeFrame h hc (by simpa [stateSelects] using hsel) hback
  | frameSkip fr =>
    obtain ⟨hrec, hempty⟩ := (wfFrame_iff s.cfg false fr).mp hwf
    refine runs_of_decodeFrame h hc rfl ((decodeFrame_of_isFrameRecord _ hrec).trans ?_)
    rw [if_pos (by simpa using hempty)]

/-! ### What an iteration answers -/

/-- A check goes on or rejects what it was given; it answers nothing else. -/
def Answers (o : Host.Outcome State Fault Refusal) : Prop :=
  (∃ t, o = .next t) ∨ ∃ r, o = .refused (.rejected r)

theorem answers_netStep (s : State) : Answers (netStep s) := by
  cases hn : s.netIn with
  | nil => exact .inl ⟨_, netStep_empty hn⟩
  | cons m rest =>
    cases hp : fitsPeer s.cfg m.sender
    · exact .inr ⟨_, netStep_noToken hn hp⟩
    · exact .inl ⟨_, netStep_message hn hp⟩

theorem answers_linkStep (s : State) : Answers (linkStep s) := by
  cases hn : s.linkRx with
  | nil => exact .inl ⟨_, linkStep_empty hn⟩
  | cons words rest =>
    cases hd : decodeBatch s.cfg words with
    | error r => exact .inr ⟨r, linkStep_broken hn hd⟩
    | ok evs => exact .inl ⟨_, linkStep_batch hn hd⟩

theorem Answers.andThen {o : Host.Outcome State Fault Refusal} {f : State → Host.Outcome State Fault Refusal}
    (ho : Answers o) (hf : ∀ s, Answers (f s)) : Answers (Machine.andThen o f) := by
  obtain ⟨t, rfl⟩ | ⟨r, rfl⟩ := ho
  · exact hf t
  · exact .inr ⟨r, rfl⟩

theorem answers_pollIteration (ord : Order) (s : State) : Answers (pollIteration ord s) := by
  cases ord
  · exact (answers_netStep s).andThen answers_linkStep
  · exact (answers_linkStep s).andThen answers_netStep

/-! ### O5 -/

/-- An effect can be refused, but never as not selected: that refusal is the guard's alone. -/
theorem effect_ne_notSelected (i : Instr) (s : State) : effect i s ≠ .refused .notSelected := by
  cases i with
  | poll ord =>
    rw [effect]
    split
    · obtain ⟨t, ht⟩ | ⟨r, hr⟩ := answers_pollIteration ord s
      · rw [ht]; nofun
      · rw [hr]; nofun
    · nofun
  | _ => nofun

theorem exec_eq_notSelected_iff (i : Instr) (s : State) (hc : cfgLegal s.cfg = true) :
    exec i s = .refused .notSelected ↔ i.wf s.cfg = false ∨ stateSelects s i = false := by
  rw [← Bool.and_eq_false_iff, ← selected]
  cases hs : selected i s
  · exact iff_of_true (by rw [exec_eq_effect, whenSelected_refused i s _ hc hs]) rfl
  · exact iff_of_false (by rw [exec_eq_effect, whenSelected_eq i s _ hc hs]; exact effect_ne_notSelected i s) nofun

/-- The states the operation map does not select an operation in (R73, 10_state.md R24). -/
theorem stateSelects_eq_false_iff (i : Instr) (s : State) :
    stateSelects s i = false ↔
      (7 < s.accBits ∧ ((∃ l d, i = .evShort l d) ∨ (∃ l d, i = .evLong l d) ∨ (∃ r, i = .evEob r) ∨
        ∃ l, i = .halfBit l)) ∨
      (s.accBits ≠ 8 ∧ i = .byteFlush) ∨
      (s.peerValid = false ∧ ((∃ fr, i = .frameFwd fr) ∨ ∃ fr, i = .frameFwdTrunc fr)) ∨
      (s.peerValid = true ∧ ∃ fr, i = .frameDrop fr) := by
  cases i <;> simp [stateSelects, accumulatorOpen]

/-- Settles O5: the guard alone refuses so, and it asks for the operands and for the state. -/
theorem refusedExactlyWhenNotSelected : Obligations.RefusedExactlyWhenNotSelected := by
  intro i s hc
  rw [exec_eq_notSelected_iff i s hc, stateSelects_eq_false_iff]

end Sys2Proof.Machine
end

section
/-! PROOFS. The poll iteration (43_bridge.md sections 1 to 3): what its two checks keep, when it completes
(60_exceptions.md R158, R159), and which operation it runs (R120, R121, R126). -/

namespace Sys2Proof.Machine

/-! ### What the two checks keep -/

@[simp] theorem byteFlush_result (s : State) : (byteFlush s).result = s.result := by
  unfold byteFlush storeByte
  split_ifs <;> rfl

@[simp] theorem halfBit_result (level : Bool) (s : State) : (halfBit level s).result = s.result := by
  unfold halfBit resolve
  split_ifs <;> simp

@[simp] theorem event_result (s : State) (e : PulseEvent) : (event s e).result = s.result := by
  cases h : classify s.cfg e.duration
  · rw [event_of_short h, halfBit_result]
  · rw [event_of_long h, halfBit_result, halfBit_result]
  · rw [event_of_noise h, note_result]

@[simp] theorem events_result (evs : List PulseEvent) (s : State) : (events evs s).result = s.result := by
  induction evs generalizing s with
  | nil => rfl
  | cons e evs ih => exact (ih (event s e)).trans (event_result s e)

@[simp] theorem linkRxState_result (evs : List PulseEvent) (s : State) : (linkRxState evs s).result = s.result := by
  simp [linkRxState, batchDecoded]

/-- The network check takes the oldest message and keeps what the bridge's operations keep. -/
theorem netStep_kept {s t : State} (h : netStep s = .next t) : BridgeKept (withNetIn s.netIn.tail s) t := by
  obtain ⟨hn, rfl⟩ | ⟨m, rest, hn, -, rfl⟩ := netStep_cases h
  · rw [hn, List.tail_nil, ← hn]
    constructor <;> rfl
  · rw [hn]
    exact netDispatch_kept m _

/-- What the transport check keeps: it takes the oldest delivery, and may write the decoder and the outputs. -/
structure LinkKept (s t : State) : Prop where
  cfg : t.cfg = s.cfg
  peerValid : t.peerValid = s.peerValid
  peerAddr : t.peerAddr = s.peerAddr
  netIn : t.netIn = s.netIn
  linkRx : t.linkRx = s.linkRx.tail
  stimulus : t.stimulus = s.stimulus
  drawCount : t.drawCount = s.drawCount
  result : t.result = s.result
  booted : t.booted = s.booted

theorem linkStep_kept {s t : State} (h : linkStep s = .next t) : LinkKept s t := by
  obtain ⟨hn, rfl⟩ | ⟨words, rest, evs, hn, -, rfl⟩ := linkStep_cases h
  · constructor
    case linkRx => rw [hn]; rfl
    all_goals rfl
  · have hout := sameOutside_linkRxState evs (withLinkRx rest s)
    have hkept := frameDispatch_kept (linkRxRecord evs s) (linkRxState evs (withLinkRx rest s))
    obtain ⟨haddr, hvalid⟩ := frameDispatch_peer (linkRxRecord evs s) (linkRxState evs (withLinkRx rest s))
    exact
      { cfg := hkept.cfg.trans hout.cfg
        peerValid := hvalid.trans hout.peerValid
        peerAddr := haddr.trans hout.peerAddr
        netIn := hkept.netIn.trans hout.netIn
        linkRx := (hkept.linkRx.trans hout.linkRx).trans (by rw [hn]; rfl)
        stimulus := hkept.stimulus.trans hout.stimulus
        drawCount := hkept.drawCount.trans hout.drawCount
        result := hkept.result.trans (linkRxState_result evs _)
        booted := hkept.booted.trans hout.booted }

/-! ### The two checks in sequence -/

theorem pollIteration_netFirst_next_iff (s t : State) :
    pollIteration .netFirst s = .next t ↔ ∃ u, netStep s = .next u ∧ linkStep u = .next t :=
  andThen_next_iff _ _ _

theorem pollIteration_linkFirst_next_iff (s t : State) :
    pollIteration .linkFirst s = .next t ↔ ∃ u, linkStep s = .next u ∧ netStep u = .next t :=
  andThen_next_iff _ _ _

/-- With no batch waiting an iteration is the network check. -/
theorem pollIteration_of_linkRx_nil (ord : Order) {s : State} (h : s.linkRx = []) :
    pollIteration ord s = netStep s := by
  cases ord with
  | netFirst =>
    obtain ⟨t, ht⟩ | ⟨r, hr⟩ := answers_netStep s
    · have hl : t.linkRx = [] := (netStep_kept ht).linkRx.trans h
      rw [pollIteration, ht, andThen, linkStep_empty hl]
    · rw [pollIteration, hr, andThen]
  | linkFirst => rw [pollIteration, linkStep_empty h, andThen]

/-- With no message waiting an iteration is the transport check. -/
theorem pollIteration_of_netIn_nil (ord : Order) {s : State} (h : s.netIn = []) :
    pollIteration ord s = linkStep s := by
  cases ord with
  | netFirst => rw [pollIteration, netStep_empty h, andThen]
  | linkFirst =>
    obtain ⟨t, ht⟩ | ⟨r, hr⟩ := answers_linkStep s
    · have hn : t.netIn = [] := (linkStep_kept ht).netIn.trans h
      rw [pollIteration, ht, andThen, netStep_empty hn]
    · rw [pollIteration, hr, andThen]

/-- With one message and no batch waiting an iteration is what the bridge does with the message. -/
theorem pollIteration_of_message (ord : Order) {s : State} {m : NetMessage} {rest : List NetMessage}
    (hn : s.netIn = m :: rest) (hl : s.linkRx = []) (hfit : m.sender < 2 ^ s.cfg.peerW) :
    pollIteration ord s = .next (netDispatch m (withNetIn rest s)) := by
  rw [pollIteration_of_linkRx_nil ord hl, netStep_message hn ((fitsPeer_iff _ _).mpr hfit)]

/-- With a batch and no message waiting an iteration is what the bridge does with the batch's record. -/
theorem pollIteration_of_batch (ord : Order) {s : State} {words : List Nat} {rest : List (List Nat)}
    {evs : List PulseEvent} (hn : s.netIn = []) (hl : s.linkRx = words :: rest)
    (hd : decodeBatch s.cfg words = .ok evs) :
    pollIteration ord s = .next (frameDispatch (linkRxRecord evs s) (linkRxState evs (withLinkRx rest s))) := by
  rw [pollIteration_of_netIn_nil ord hn, linkStep_batch hl hd]

/-! ### O39, O40 and O41 -/

/-- Settles O39: with no batch waiting the iteration is the network check, which finds no message. -/
theorem idleIterationChangesNothing : Obligations.IdleIterationChangesNothing := by
  intro s ord hc hb hn hl
  rw [exec_poll_of_booted ord hc hb, pollIteration_of_linkRx_nil ord hl, netStep_empty hn]

theorem netStep_completes_iff (s : State) :
    (∃ t, netStep s = .next t) ↔ ∀ m ∈ s.netIn.head?, fitsPeer s.cfg m.sender = true := by
  cases hn : s.netIn with
  | nil => exact iff_of_true ⟨_, netStep_empty hn⟩ (by simp)
  | cons m rest =>
    cases hp : fitsPeer s.cfg m.sender
    · exact iff_of_false (by simp [netStep_noToken hn hp]) (by simp [hp])
    · exact iff_of_true ⟨_, netStep_message hn hp⟩ (by simp [hp])

theorem linkStep_completes_iff (s : State) :
    (∃ t, linkStep s = .next t) ↔ ∀ b ∈ s.linkRx.head?, WholeBatch s.cfg b := by
  cases hn : s.linkRx with
  | nil => exact iff_of_true ⟨_, linkStep_empty hn⟩ (by simp)
  | cons words rest =>
    simp only [List.head?_cons, Option.mem_some_iff, forall_eq', ← deliveryAcceptedIffWholeBatch s.cfg words]
    cases hd : decodeBatch s.cfg words with
    | error r => exact iff_of_false (by simp [linkStep_broken hn hd]) (by simp)
    | ok evs => exact iff_of_true ⟨_, linkStep_batch hn hd⟩ ⟨evs, rfl⟩

/-- Neither check touches what the other waits for, so an iteration completes exactly when both would. -/
theorem pollIteration_completes_iff (ord : Order) (s : State) :
    (∃ t, pollIteration ord s = .next t) ↔ WithinDuties s := by
  rw [WithinDuties, ← netStep_completes_iff, ← linkStep_completes_iff]
  cases ord with
  | netFirst =>
    simp only [pollIteration_netFirst_next_iff]
    rw [exists_comm]
    simp only [exists_and_left, ← exists_and_right]
    refine exists_congr fun u => and_congr_right fun hu => ?_
    rw [linkStep_completes_iff, linkStep_completes_iff, (netStep_kept hu).cfg, (netStep_kept hu).linkRx]
    rfl
  | linkFirst =>
    simp only [pollIteration_linkFirst_next_iff]
    rw [exists_comm, and_comm]
    simp only [exists_and_left, ← exists_and_right]
    refine exists_congr fun u => and_congr_right fun hu => ?_
    rw [netStep_completes_iff, netStep_completes_iff, (linkStep_kept hu).cfg, (linkStep_kept hu).netIn]

/-- An iteration that completes has taken the oldest message of each channel. -/
theorem pollIteration_takes {ord : Order} {s t : State} (h : pollIteration ord s = .next t) :
    t.netIn = s.netIn.tail ∧ t.linkRx = s.linkRx.tail := by
  cases ord with
  | netFirst =>
    obtain ⟨u, hu, ht⟩ := (pollIteration_netFirst_next_iff s t).mp h
    refine ⟨(linkStep_kept ht).netIn.trans (netStep_kept hu).netIn, (linkStep_kept ht).linkRx.trans ?_⟩
    rw [(netStep_kept hu).linkRx]; rfl
  | linkFirst =>
    obtain ⟨u, hu, ht⟩ := (pollIteration_linkFirst_next_iff s t).mp h
    refine ⟨(netStep_kept ht).netIn.trans ?_, (netStep_kept ht).linkRx.trans (linkStep_kept hu).linkRx⟩
    rw [(linkStep_kept hu).netIn]; rfl

/-- Settles O40: the duties are what the two checks ask for. -/
theorem iterationCompletesWithinDuties : Obligations.IterationCompletesWithinDuties := by
  intro s ord hc hb hduties
  obtain ⟨t, ht⟩ := (pollIteration_completes_iff ord s).mpr hduties
  exact ⟨t, (exec_poll_of_booted ord hc hb).trans ht, pollIteration_takes ht⟩

/-- Settles O41: an iteration either completes or rejects, and outside the duties it does not complete. -/
theorem iterationRefusesBrokenDeliveries : Obligations.IterationRefusesBrokenDeliveries := by
  intro s ord hc hb hbroken
  rw [exec_poll_of_booted ord hc hb]
  exact (answers_pollIteration ord s).resolve_left (mt (pollIteration_completes_iff ord s).mp hbroken)

/-! ### O42 and O43 -/

/-- Settles O42: the tests on the payload's length are those by which the map selects the operation. -/
theorem iterationRunsTheMessageItReceives : Obligations.IterationRunsTheMessageItReceives := by
  intro s ord m rest hc hb hn hl hfit
  have hruns : ∀ i, decodeNetMessage s.cfg m = .ok i →
      exec (.poll ord) s = exec i { s with netIn := rest } := fun i hi => by
    rw [exec_poll_of_booted ord hc hb, pollIteration_of_message ord hn hl hfit]
    exact (exec_of_decodeNetMessage (s := withNetIn rest s) hc hi).symm
  rw [decodeNetMessage_of_fits hfit] at hruns
  refine ⟨fun hover => hruns _ ?_, fun hempty => hruns _ ?_, fun hpos hmax => hruns _ ?_⟩
  · rw [if_pos hover]
  · rw [if_neg (by omega), if_pos hempty]
  · rw [if_neg (by omega), if_neg (by omega)]

/-- Settles O43: the record is a frame record, and the tests on it are those by which the map selects the operation. -/
theorem iterationRunsTheBatchItReceives : Obligations.IterationRunsTheBatchItReceives := by
  intro s ord words rest evs hc hb hn hl hd
  have hout := sameOutside_linkRxState evs (withLinkRx rest s)
  have hrecord : linkRxRecord evs (withLinkRx rest s) = linkRxRecord evs s := linkRxRecord_congr evs rfl rfl
  have hback : ({ linkRxState evs (withLinkRx rest s) with result := s.result } : State) =
      linkRxState evs (withLinkRx rest s) :=
    congrArg (fun r => ({ linkRxState evs (withLinkRx rest s) with result := r } : State))
      (linkRxState_result evs (withLinkRx rest s)).symm
  have hruns : ∀ i, decodeFrame s.cfg s.peerValid (linkRxRecord evs s) = .ok i →
      exec (.poll ord) s = exec i { linkRxState evs (withLinkRx rest s) with result := s.result } := fun i hi => by
    rw [exec_poll_of_booted ord hc hb, pollIteration_of_batch ord hn hl hd, hback]
    exact (exec_of_decodeFrame (by rw [hout.cfg]; exact hc) (by rw [hout.cfg, hout.peerValid]; exact hi)).symm
  rw [decodeFrame_of_isFrameRecord _ (linkRxRecord_isFrameRecord evs s)] at hruns
  refine ⟨_, linkRxRecord evs s, exec_linkRx (withLinkRx rest s) evs hc (duration_lt_of_decodeBatch hd), ?_,
    fun hempty => hruns _ ?_, fun hpos hpeer => hruns _ ?_, fun hpos hpeer htrunc => hruns _ ?_,
    fun hpos hpeer htrunc => hruns _ ?_⟩
  · rw [hrecord]
  · rw [if_pos hempty]
  · rw [if_neg (by omega), if_pos hpeer]
  · rw [if_neg (by omega), if_neg (by simp [hpeer]), if_pos htrunc]
  · rw [if_neg (by omega), if_neg (by simp [hpeer]), if_neg (by simp [htrunc])]

/-! ### O44 -/

theorem netStep_withLinkRx_next_iff (l : List (List Nat)) (s t : State) :
    netStep (withLinkRx l s) = .next t ↔ ∃ u, netStep s = .next u ∧ t = withLinkRx l u := by
  rw [netStep_withLinkRx, andThen_next_iff]
  simp only [Host.Outcome.next.injEq, eq_comm]

theorem linkStep_withNetIn_next_iff (l : List NetMessage) (s t : State) :
    linkStep (withNetIn l s) = .next t ↔ ∃ u, linkStep s = .next u ∧ t = withNetIn l u := by
  rw [linkStep_withNetIn, andThen_next_iff]
  simp only [Host.Outcome.next.injEq, eq_comm]

/-- The network direction alone, as an iteration with no batch waiting. -/
theorem exec_poll_withLinkRx_nil_next_iff (ord : Order) {s : State} (hc : cfgLegal s.cfg = true)
    (hb : s.booted = true) (t : State) :
    exec (.poll ord) (withLinkRx [] s) = .next t ↔ ∃ u, netStep s = .next u ∧ t = withLinkRx [] u := by
  rw [exec_poll_of_booted (s := withLinkRx [] s) ord hc hb, pollIteration_of_linkRx_nil ord rfl,
    netStep_withLinkRx_next_iff]

/-- The transport direction alone, as an iteration with no message waiting. -/
theorem exec_poll_withNetIn_nil_next_iff (ord : Order) {s : State} (hc : cfgLegal s.cfg = true)
    (hb : s.booted = true) (t : State) :
    exec (.poll ord) (withNetIn [] s) = .next t ↔ ∃ u, linkStep s = .next u ∧ t = withNetIn [] u := by
  rw [exec_poll_of_booted (s := withNetIn [] s) ord hc hb, pollIteration_of_netIn_nil ord rfl,
    linkStep_withNetIn_next_iff]

/-- What the network check leaves on `LINK_RX` is what waited there. -/
theorem withLinkRx_of_netStep {s u : State} (h : netStep s = .next u) : withLinkRx s.linkRx u = u := by
  have hl : u.linkRx = s.linkRx := (netStep_kept h).linkRx
  rw [← hl]
  rfl

/-- What the transport check leaves on `NET_IN` is what waited there. -/
theorem withNetIn_of_linkStep {s u : State} (h : linkStep s = .next u) : withNetIn s.netIn u = u := by
  rw [← (linkStep_kept h).netIn]
  rfl

/-- Settles O44: each check commutes with setting the other's channel aside and putting it back. -/
theorem iterationIsItsDirectionsInDrawnOrder : Obligations.IterationIsItsDirectionsInDrawnOrder := by
  intro s t hc hb
  constructor
  · rw [exec_poll_of_booted .netFirst hc hb, pollIteration_netFirst_next_iff]
    have hsecond : ∀ u, netStep s = .next u → ∀ v,
        exec (.poll .netFirst) { withLinkRx [] u with linkRx := s.linkRx, netIn := [] } = .next v ↔
          ∃ t, linkStep u = .next t ∧ v = withNetIn [] t := fun u hu v => by
      have hk := netStep_kept hu
      rw [← exec_poll_withNetIn_nil_next_iff .netFirst (by rw [hk.cfg]; exact hc) (hk.booted.trans hb),
        ← congrArg (withNetIn []) (withLinkRx_of_netStep hu)]
      rfl
    constructor
    · rintro ⟨u, hu, ht⟩
      refine ⟨withLinkRx [] u, withNetIn [] t, (exec_poll_withLinkRx_nil_next_iff _ hc hb _).mpr ⟨u, hu, rfl⟩,
        (hsecond u hu _).mpr ⟨t, ht, rfl⟩, (withNetIn_of_linkStep ht).symm⟩
    · rintro ⟨u', v, hu', hv, rfl⟩
      obtain ⟨u, hu, rfl⟩ := (exec_poll_withLinkRx_nil_next_iff _ hc hb _).mp hu'
      obtain ⟨t, ht, rfl⟩ := (hsecond u hu v).mp hv
      exact ⟨u, hu, ht.trans (congrArg _ (withNetIn_of_linkStep ht).symm)⟩
  · rw [exec_poll_of_booted .linkFirst hc hb, pollIteration_linkFirst_next_iff]
    have hsecond : ∀ u, linkStep s = .next u → ∀ v,
        exec (.poll .linkFirst) { withNetIn [] u with netIn := s.netIn, linkRx := [] } = .next v ↔
          ∃ t, netStep u = .next t ∧ v = withLinkRx [] t := fun u hu v => by
      have hk := linkStep_kept hu
      rw [← exec_poll_withLinkRx_nil_next_iff .linkFirst (by rw [hk.cfg]; exact hc) (hk.booted.trans hb),
        ← congrArg (withLinkRx []) (withNetIn_of_linkStep hu)]
      rfl
    constructor
    · rintro ⟨u, hu, ht⟩
      refine ⟨withNetIn [] u, withLinkRx [] t, (exec_poll_withNetIn_nil_next_iff _ hc hb _).mpr ⟨u, hu, rfl⟩,
        (hsecond u hu _).mpr ⟨t, ht, rfl⟩, (withLinkRx_of_netStep ht).symm⟩
    · rintro ⟨u', v, hu', hv, rfl⟩
      obtain ⟨u, hu, rfl⟩ := (exec_poll_withNetIn_nil_next_iff _ hc hb _).mp hu'
      obtain ⟨t, ht, rfl⟩ := (hsecond u hu v).mp hv
      exact ⟨u, hu, ht.trans (congrArg _ (withLinkRx_of_netStep ht).symm)⟩

end Sys2Proof.Machine
end

section
/-! PROOFS. A batch decoded as one unit (41_decoder.md section 4, 42_frame.md R111): the record its half-bit windows
determine, and the batches that decode alike. -/

namespace Sys2Proof.Machine

/-! ### The record of a batch -/

/-- The frame record that half-bit windows determine (R101). -/
structure RecordsWindows (c : Config) (W : List Bool) (fr : FrameRecord) : Prop where
  length : fr.bytes.length = min (W.length / 16) c.frameMax
  bits : ∀ (j k : Nat) (b : Byte), fr.bytes[j]? = some b → k < 8 → W[16 * j + 2 * k + 1]? = some (b.getLsbD (7 - k))
  residualBits : fr.residualBits = W.length / 2 % 8
  truncated : fr.truncated = decide (c.frameMax < W.length / 16)

theorem counted_batchDecoded (evs : List PulseEvent) (s : State) (hw : Memory.wf s.frameBuf = true) :
    Counted s.cfg (windowsOf s.cfg evs) (batchDecoded evs s) :=
  (counted_batchStart s hw).events evs

theorem recordsWindows_linkRxRecord (evs : List PulseEvent) (s : State) (hw : Memory.wf s.frameBuf = true) :
    RecordsWindows s.cfg (windowsOf s.cfg evs) (linkRxRecord evs s) := by
  obtain ⟨-, -, -, hlen, htrunc, hacc, hbytes, -⟩ := counted_batchDecoded evs s hw
  refine ⟨(Memory.firstBytes_length _ _).trans hlen, fun j k b hj hk => ?_, hacc, htrunc⟩
  have hlt : j < (batchDecoded evs s).frameLen := by
    simpa [linkRxRecord, frameRecordOf] using (List.getElem?_eq_some_iff.mp hj).1
  obtain rfl : Memory.read (batchDecoded evs s).frameBuf j = b :=
    Option.some.inj ((Memory.firstBytes_get _ _ j hlt).symm.trans hj)
  exact hbytes j k hlt hk

/-- Two bytes with the same eight bits, read from bit 7 down, are equal. -/
theorem byte_ext {b d : Byte} (h : ∀ k, k < 8 → b.getLsbD (7 - k) = d.getLsbD (7 - k)) : b = d := by
  refine BitVec.eq_of_getLsbD_eq fun i hi => ?_
  simpa [Nat.sub_sub_self (Nat.le_of_lt_succ hi)] using h (7 - i) (by omega)

/-- The record is a function of the number of windows and of the levels of the second halves (R101). -/
theorem RecordsWindows.unique {c : Config} {W V : List Bool} {fr gr : FrameRecord} (h : RecordsWindows c W fr)
    (k : RecordsWindows c V gr) (hlen : W.length = V.length) (hodd : ∀ n, W[2 * n + 1]? = V[2 * n + 1]?) :
    fr = gr := by
  have hbytes : fr.bytes = gr.bytes := by
    refine List.ext_getElem (by rw [h.length, k.length, hlen]) fun j hj hj' => byte_ext fun n hn => ?_
    have hbit := h.bits j n _ (List.getElem?_eq_getElem hj) hn
    rw [show 16 * j + 2 * n + 1 = 2 * (8 * j + n) + 1 by omega, hodd,
      show 2 * (8 * j + n) + 1 = 16 * j + 2 * n + 1 by omega, k.bits j n _ (List.getElem?_eq_getElem hj') hn] at hbit
    exact (Option.some.inj hbit).symm
  have hres : fr.residualBits = gr.residualBits := by rw [h.residualBits, k.residualBits, hlen]
  have htrunc : fr.truncated = gr.truncated := by rw [h.truncated, k.truncated, hlen]
  cases fr
  cases gr
  exact (FrameRecord.mk.injEq ..).mpr ⟨hbytes, hres, htrunc⟩

/-! ### O21 to O24 -/

/-- Settles O21: the law is kept window by window from the start of the batch. -/
theorem countingLaw : Obligations.CountingLaw := by
  intro s evs hw
  obtain ⟨-, -, hphase, hlen, htrunc, hacc, hbytes, hrest⟩ := counted_batchDecoded evs s hw
  exact ⟨hphase, hlen, htrunc, hacc, hbytes, hrest⟩

/-- Settles O22: the map selects LINK_RX in every state, and its record is the one the counting law gives. -/
theorem linkRxReturnsTheDecodedFrame : Obligations.LinkRxReturnsTheDecodedFrame := by
  intro s evs hc hw hfit
  obtain ⟨hlen, hbits, hres, htrunc⟩ := recordsWindows_linkRxRecord evs s hw
  exact ⟨_, linkRxRecord evs s, exec_linkRx s evs hc hfit, rfl, hlen, hbits, hres, htrunc⟩

/-- Settles O23: both records are those of the same windows under the same configuration. -/
theorem noBatchObservesAnEarlierOne : Obligations.NoBatchObservesAnEarlierOne := by
  intro s u evs hc hcfg hs hu hfit
  have hrecord : linkRxRecord evs s = linkRxRecord evs u :=
    (recordsWindows_linkRxRecord evs s hs).unique (hcfg ▸ recordsWindows_linkRxRecord evs u hu) rfl fun _ => rfl
  rw [← hcfg] at hc hfit
  exact ⟨_, _, exec_linkRx s evs (hcfg ▸ hc) (hcfg ▸ hfit), exec_linkRx u evs hc hfit, congrArg Returned.frame hrecord⟩

/-- Settles O24: the odd windows and the number of windows determine the record. -/
theorem firstHalfLevelsAreNotRead : Obligations.FirstHalfLevelsAreNotRead := by
  intro s xs ys hc hw hxs hys hlen hodd
  exact ⟨_, _, exec_linkRx s xs hc hxs, exec_linkRx s ys hc hys, congrArg Returned.frame
    ((recordsWindows_linkRxRecord xs s hw).unique (recordsWindows_linkRxRecord ys s hw) hlen hodd)⟩

/-! ### O25 and O26 -/

theorem DecoderEq.frameRecordOf {s t : State} (h : DecoderEq s t) :
    Machine.frameRecordOf s = Machine.frameRecordOf t := by
  simp only [Machine.frameRecordOf, h.frameBuf, h.frameLen, h.accBits, h.frameTrunc]

/-- A noise event in the middle of a batch leaves the decoder as without it (R92). -/
theorem decoderEq_batchDecoded_noise (xs ys : List PulseEvent) {s : State} {e : PulseEvent}
    (h : classify s.cfg e.duration = .noise) :
    DecoderEq (batchDecoded (xs ++ e :: ys) s) (batchDecoded (xs ++ ys) s) := by
  have hcfg := (sameOutside_batchDecoded xs s).cfg
  have hnoise : event (batchDecoded xs s) e = note .noise (batchDecoded xs s) :=
    event_of_noise (by rw [hcfg]; exact h)
  have hskip : DecoderEq (event (batchDecoded xs s) e) (batchDecoded xs s) := by
    rw [hnoise]
    constructor <;> rfl
  rw [batchDecoded, batchDecoded, events_append, events_append]
  exact hskip.events ys

/-- Settles O25: the decoder is the same before the end of the batch, so the record and the buffer are. -/
theorem noiseDoesNotAlterTheFrame : Obligations.NoiseDoesNotAlterTheFrame := by
  intro s xs ys e hc hfit hk
  have hsame := decoderEq_batchDecoded_noise xs ys hk
  have hfit' : ∀ x ∈ xs ++ ys, x.duration < 2 ^ s.cfg.durW := fun x hx =>
    hfit x (by rcases List.mem_append.mp hx with h | h <;> simp [h])
  refine ⟨_, _, exec_linkRx s _ hc hfit, exec_linkRx s _ hc hfit', congrArg Returned.frame hsame.frameRecordOf, ?_⟩
  simpa [linkRxState] using hsame.frameBuf

/-- A long event is two short ones of its level, in any decoder state (R66). -/
theorem event_long_eq_shorts (s : State) (level : Bool) {d d₁ d₂ : Nat} (hd : classify s.cfg d = .long)
    (hd₁ : classify s.cfg d₁ = .short) (hd₂ : classify s.cfg d₂ = .short) :
    event s ⟨level, d⟩ = event (event s ⟨level, d₁⟩) ⟨level, d₂⟩ := by
  rw [event_of_long (e := ⟨level, d⟩) hd, event_of_short (e := ⟨level, d₁⟩) hd₁,
    event_of_short (e := ⟨level, d₂⟩) (by rw [(sameOutside_halfBit level s).cfg]; exact hd₂)]

theorem batchDecoded_long_eq_shorts (xs ys : List PulseEvent) (s : State) (level : Bool) {d d₁ d₂ : Nat}
    (hd : classify s.cfg d = .long) (hd₁ : classify s.cfg d₁ = .short) (hd₂ : classify s.cfg d₂ = .short) :
    batchDecoded (xs ++ ⟨level, d⟩ :: ys) s = batchDecoded (xs ++ ⟨level, d₁⟩ :: ⟨level, d₂⟩ :: ys) s := by
  rw [batchDecoded, batchDecoded, events_append, events_append]
  have hcfg : (events xs (batchStart s)).cfg = s.cfg := (sameOutside_batchDecoded xs s).cfg
  exact congrArg (events ys) (event_long_eq_shorts _ level (by rw [hcfg]; exact hd) (by rw [hcfg]; exact hd₁)
    (by rw [hcfg]; exact hd₂))

/-- Settles O26: the decoder's state is the same before the end of the batch. -/
theorem mergedHalfBitsDecodeAlike : Obligations.MergedHalfBitsDecodeAlike := by
  intro s xs ys level d d₁ d₂ hc hfit hmin hmax hmin₁ hmax₁ hmin₂ hmax₂
  obtain ⟨-, -, -, hapart, -⟩ := (cfgLegal_iff s.cfg).mp hc
  have hsame := batchDecoded_long_eq_shorts xs ys s level
    ((classify_eq_long_iff _ d hapart).mpr ⟨hmin, hmax⟩)
    ((classify_eq_short_iff _ d₁).mpr ⟨hmin₁, hmax₁⟩) ((classify_eq_short_iff _ d₂).mpr ⟨hmin₂, hmax₂⟩)
  have hd := lt_two_pow_durW_of_le_longMax hc hmax
  have hd₁ := lt_two_pow_durW_of_le_shortMax hc hmax₁
  have hd₂ := lt_two_pow_durW_of_le_shortMax hc hmax₂
  rw [List.forall_mem_append] at hfit
  refine ⟨_, exec_linkRx s _ hc ?_, (exec_linkRx s _ hc ?_).trans ?_⟩
  · exact List.forall_mem_append.mpr ⟨hfit.1, List.forall_mem_cons.mpr ⟨hd, hfit.2⟩⟩
  · exact List.forall_mem_append.mpr
      ⟨hfit.1, List.forall_mem_cons.mpr ⟨hd₁, List.forall_mem_cons.mpr ⟨hd₂, hfit.2⟩⟩⟩
  · rw [linkRxState, linkRxRecord, ← hsame, linkRxState, linkRxRecord]

/-! ### O27 -/

/-- Where every event is short, the windows are the levels. -/
theorem windowsOf_of_shorts {c : Config} {evs : List PulseEvent} (h : ∀ e ∈ evs, classify c e.duration = .short) :
    windowsOf c evs = evs.map PulseEvent.level := by
  induction evs with
  | nil => rfl
  | cons e evs ih =>
    obtain ⟨he, hevs⟩ := List.forall_mem_cons.mp h
    rw [windowsOf_cons, ih hevs, windowsOfEvent, he]
    rfl

theorem windowsOf_encodeBytes {c : Config} (hc : cfgLegal c = true) (bytes : List Byte) :
    windowsOf c (encodeBytes c bytes) = (encodeBytes c bytes).map PulseEvent.level :=
  windowsOf_of_shorts fun e he => by rw [duration_of_mem_encodeBytes he, classify_txShort hc]

theorem length_windowsOf_encodeBytes {c : Config} (hc : cfgLegal c = true) (bytes : List Byte) :
    (windowsOf c (encodeBytes c bytes)).length = 16 * bytes.length := by
  rw [windowsOf_encodeBytes hc, List.length_map, length_encodeBytes]

/-- The bytes encoded, as many as the buffer holds, are the record of their pulses' windows (R170). -/
theorem recordsWindows_encodeBytes {c : Config} (hc : cfgLegal c = true) (bytes : List Byte) :
    RecordsWindows c (windowsOf c (encodeBytes c bytes))
      ⟨bytes.take c.frameMax, 0, decide (c.frameMax < bytes.length)⟩ := by
  have hlen := length_windowsOf_encodeBytes hc bytes
  constructor
  case length => rw [hlen, List.length_take]; omega
  case bits =>
    intro j k b hj hk
    obtain ⟨-, hb⟩ : j < c.frameMax ∧ bytes[j]? = some b := by simpa [List.getElem?_take] using hj
    rw [windowsOf_encodeBytes hc, List.getElem?_map, getElem?_encodeBytes_half c hb hk (j := 1) (by decide)]
    rfl
  case residualBits => rw [hlen]; exact (by omega : 0 = 16 * bytes.length / 2 % 8)
  case truncated => rw [hlen, Nat.mul_div_cancel_left _ (by decide)]

/-- What LINK_RX returns for the pulses ENCODE gives. -/
theorem linkRxRecord_encodeBytes (s : State) (bytes : List Byte) (hc : cfgLegal s.cfg = true)
    (hw : Memory.wf s.frameBuf = true) :
    linkRxRecord (encodeBytes s.cfg bytes) s =
      ⟨bytes.take s.cfg.frameMax, 0, decide (s.cfg.frameMax < bytes.length)⟩ :=
  (recordsWindows_linkRxRecord _ s hw).unique (recordsWindows_encodeBytes hc bytes) rfl fun _ => rfl

/-- Settles O27: the record LINK_RX returns and the one of the bytes encoded are records of the same windows. -/
theorem decodeOfEncodedBytesIsTheBytes : Obligations.DecodeOfEncodedBytesIsTheBytes := by
  intro s bytes hc hw
  exact ⟨_, exec_linkRx s _ hc fun e he => duration_lt_of_mem_encodeBytes hc he,
    congrArg Returned.frame (linkRxRecord_encodeBytes s bytes hc hw)⟩

/-! ### O29 -/

theorem Paced.event {c : Config} {n : Nat} {t : State} (h : Paced c n t) (e : PulseEvent) :
    Paced c (n + (windowsOfEvent c e).length) (Machine.event t e) := by
  simpa using h.events [e]

/-- Before the sixteenth window of a batch nothing is flushed, so no window notes anything. -/
theorem Paced.halfBit_notes {c : Config} {n : Nat} {t : State} (h : Paced c n t) (hn : n < 15) (level : Bool) :
    (Machine.halfBit level t).notes = t.notes := by
  have hphase := h.phase
  have hacc := h.accBits
  cases hp : t.phase
  · rw [halfBit_of_firstHalf level hp, togglePhase_notes]
  · have hodd : n % 2 = 1 := by simpa [hp] using hphase
    rw [halfBit_of_secondHalf level hp, resolve_of_lt level (by omega), togglePhase_notes, appendBit_notes]

/-- Before the sixteenth window only noise is noted. -/
theorem Paced.event_notes {c : Config} {n : Nat} {t : State} (h : Paced c n t) (e : PulseEvent)
    (hn : n + (windowsOfEvent c e).length ≤ 15) :
    ∃ k, (Machine.event t e).notes = t.notes ++ List.replicate k .noise := by
  cases hk : classify t.cfg e.duration with
  | short =>
    have hlen : (windowsOfEvent c e).length = 1 := by rw [windowsOfEvent, ← h.cfg, hk]; rfl
    exact ⟨0, by rw [event_of_short hk, h.halfBit_notes (by omega)]; simp⟩
  | long =>
    have hlen : (windowsOfEvent c e).length = 2 := by rw [windowsOfEvent, ← h.cfg, hk]; rfl
    exact ⟨0, by
      rw [event_of_long hk, (h.halfBit e.level).halfBit_notes (by omega), h.halfBit_notes (by omega)]; simp⟩
  | noise => exact ⟨1, by rw [event_of_noise hk, note_notes]; rfl⟩

theorem Paced.events_notes {c : Config} {n : Nat} {t : State} (h : Paced c n t) (evs : List PulseEvent)
    (hn : n + (windowsOf c evs).length ≤ 15) :
    ∃ k, (Machine.events evs t).notes = t.notes ++ List.replicate k .noise := by
  induction evs generalizing n t with
  | nil => exact ⟨0, by simp⟩
  | cons e evs ih =>
    rw [windowsOf_cons, List.length_append, ← Nat.add_assoc] at hn
    obtain ⟨k, hk⟩ := h.event_notes e (by omega)
    obtain ⟨l, hl⟩ := ih (h.event e) hn
    refine ⟨k + l, ?_⟩
    rw [List.replicate_add, ← List.append_assoc, ← hk]
    exact hl

/-- Settles O29: nothing but noise is noted before the end, where no byte is complete and the bits left over are half
the windows. -/
theorem shortBatchNotesTruncatedAndEmpty : Obligations.ShortBatchNotesTruncatedAndEmpty := by
  intro s evs hc hfit hn
  have hstart : Paced s.cfg 0 (batchStart s) := paced_batchDecoded [] s
  obtain ⟨k, hk⟩ := hstart.events_notes evs (by omega)
  obtain ⟨-, -, hlen, -, hacc⟩ := paced_batchDecoded evs s
  refine ⟨_, k, exec_linkRx s evs hc hfit, ?_⟩
  have hempty : (batchDecoded evs s).frameLen = 0 := by rw [hlen]; omega
  have hresidue : (batchDecoded evs s).accBits ≠ 0 ↔ 2 ≤ (windowsOf s.cfg evs).length := by rw [hacc]; omega
  have hnotes : (batchDecoded evs s).notes = s.notes ++ List.replicate k .noise := hk
  simp only [linkRxState, endOfBatch_eq, hnotes, hempty, hresidue, List.append_assoc]
  split_ifs <;> rfl

/-! ### O30 -/

theorem event_accBits_le {s : State} (e : PulseEvent) (h : s.accBits ≤ 7) : (event s e).accBits ≤ 7 := by
  cases hk : classify s.cfg e.duration
  · rw [event_of_short hk]; exact halfBit_accBits_le _ h
  · rw [event_of_long hk]; exact halfBit_accBits_le _ (halfBit_accBits_le _ h)
  · rw [event_of_noise hk]; exact h

/-- The operations of events, one after another, run the events (R91). -/
theorem runOps_eventInstrs (evs : List PulseEvent) (is : List Instr) {s : State} (hc : cfgLegal s.cfg = true)
    (hacc : s.accBits ≤ 7) (hfit : ∀ e ∈ evs, e.duration < 2 ^ s.cfg.durW) :
    (events evs s).accBits ≤ 7 ∧ runOps (evs.map (eventInstr s.cfg) ++ is) s = runOps is (events evs s) := by
  induction evs generalizing s with
  | nil => exact ⟨hacc, rfl⟩
  | cons e evs ih =>
    obtain ⟨he, hevs⟩ := List.forall_mem_cons.mp hfit
    have hcfg := (sameOutside_event s e).cfg
    have hrest := ih (s := event s e) (by rw [hcfg]; exact hc) (event_accBits_le e hacc) (by rw [hcfg]; exact hevs)
    rw [hcfg] at hrest
    refine ⟨hrest.1, ?_⟩
    rw [List.map_cons, List.cons_append, runOps, exec_eventInstr s e hc hacc he]
    exact hrest.2

theorem batchStart_of_atRest {s : State} (h : DecoderAtRest s) : batchStart s = s := by
  cases s
  simp only [DecoderAtRest] at h
  obtain ⟨rfl, rfl, rfl, rfl, rfl⟩ := h
  rfl

/-- Settles O30: from rest the start of a batch changes nothing, and the end of it is the same operation. -/
theorem beatByBeatIsTheWholeBatch : Obligations.BeatByBeatIsTheWholeBatch := by
  intro s evs reserved hc hrest hfit hres
  have hstart : batchDecoded evs s = events evs s := by rw [batchDecoded, batchStart_of_atRest hrest]
  obtain ⟨hacc, hrun⟩ := runOps_eventInstrs evs [.evEob reserved] hc (by rw [hrest.2.1]; decide) hfit
  have hcfg := (sameOutside_events evs s).cfg
  refine ⟨_, exec_linkRx s evs hc hfit, ?_⟩
  rw [hrun, runOps, exec_evEob _ reserved (by rw [hcfg]; exact hc) hacc (by rw [hcfg]; exact hres), linkRxState,
    linkRxRecord, hstart]
  rfl

end Sys2Proof.Machine
end

section
/-! PROOFS. Payloads and frames through an iteration (43_bridge.md section 4, 95_test_vectors.md W5 to W7): where a
frame goes when a payload is accepted beside it, and what a batch makes the core emit. -/

namespace Sys2Proof.Machine

/-! ### Outputs by channel -/

@[simp] theorem netOutsOf_append (xs ys : List Output) : netOutsOf (xs ++ ys) = netOutsOf xs ++ netOutsOf ys :=
  List.filterMap_append

/-- The network direction sends nothing on `NET_OUT`. -/
@[simp] theorem netOutsOf_netOutputs (c : Config) (m : NetMessage) : netOutsOf (netOutputs c m) = [] := by
  unfold netOutputs
  split_ifs <;> rfl

/-- An accepted payload goes to the link and is logged (R122, R124). -/
theorem netOutputs_of_accepted {c : Config} {m : NetMessage} (hmax : m.payload.length ≤ c.maxPayload) :
    netOutputs c m = [.linkTx (txWords c m.payload),
      .logOut ⟨.netToLink, .forwarded, m.payload.length, preview c m.payload⟩] :=
  if_neg (Nat.not_lt.mpr hmax)

/-- A frame goes to the peer and is logged (R127, R129). -/
theorem frameOutputs_of_peer {fr : FrameRecord} {s : State} (hpos : 1 ≤ fr.bytes.length)
    (hpeer : s.peerValid = true) :
    frameOutputs fr s = [.netOut s.peerAddr fr.bytes, .logOut ⟨.linkToNet,
      if fr.truncated then .forwardedTruncated else .forwarded, fr.bytes.length, preview s.cfg fr.bytes⟩] := by
  rw [frameOutputs, if_neg (by omega), if_neg (by simp [hpeer])]

/-- Without a peer a frame is only logged (R128). -/
theorem frameOutputs_of_noPeer {fr : FrameRecord} {s : State} (hpos : 1 ≤ fr.bytes.length)
    (hpeer : s.peerValid = false) :
    frameOutputs fr s = [.logOut ⟨.linkToNet, .droppedNoPeer, fr.bytes.length, preview s.cfg fr.bytes⟩] := by
  rw [frameOutputs, if_neg (by omega), if_pos hpeer]

/-! ### A frame's length and the outputs of a batch -/

theorem length_linkRxRecord (evs : List PulseEvent) (s : State) :
    (linkRxRecord evs s).bytes.length = min ((windowsOf s.cfg evs).length / 16) s.cfg.frameMax :=
  (Memory.firstBytes_length _ _).trans (paced_batchDecoded evs s).frameLen

/-- Sixteen windows complete a byte, and a legal buffer holds one. -/
theorem one_le_length_linkRxRecord {evs : List PulseEvent} {s : State} (hc : cfgLegal s.cfg = true)
    (hn : 16 ≤ (windowsOf s.cfg evs).length) : 1 ≤ (linkRxRecord evs s).bytes.length := by
  obtain ⟨-, -, -, -, -, -, hframe, -⟩ := (cfgLegal_iff s.cfg).mp hc
  rw [length_linkRxRecord]
  omega

/-- With a peer known when its batch is taken, a frame goes to it and is logged. -/
theorem out_frameDispatch_linkRxState_of_peer {fr : FrameRecord} (evs : List PulseEvent) {s : State}
    (hpos : 1 ≤ fr.bytes.length) (hpeer : s.peerValid = true) :
    (frameDispatch fr (linkRxState evs s)).out = s.out ++ [.netOut s.peerAddr fr.bytes, .logOut ⟨.linkToNet,
      if fr.truncated then .forwardedTruncated else .forwarded, fr.bytes.length, preview s.cfg fr.bytes⟩] := by
  have hout := sameOutside_linkRxState evs s
  rw [frameDispatch_out, frameOutputs_of_peer hpos (hout.peerValid.trans hpeer), hout.out, hout.peerAddr, hout.cfg]

/-- Without a peer a frame is only logged. -/
theorem out_frameDispatch_linkRxState_of_noPeer {fr : FrameRecord} (evs : List PulseEvent) {s : State}
    (hpos : 1 ≤ fr.bytes.length) (hpeer : s.peerValid = false) :
    (frameDispatch fr (linkRxState evs s)).out = s.out ++
      [.logOut ⟨.linkToNet, .droppedNoPeer, fr.bytes.length, preview s.cfg fr.bytes⟩] := by
  have hout := sameOutside_linkRxState evs s
  rw [frameDispatch_out, frameOutputs_of_noPeer hpos (hout.peerValid.trans hpeer), hout.out, hout.cfg]

/-- Neither a batch nor its record writes the peer (R130). -/
theorem peer_frameDispatch_linkRxState (fr : FrameRecord) (evs : List PulseEvent) (s : State) :
    (frameDispatch fr (linkRxState evs s)).peerAddr = s.peerAddr ∧
      (frameDispatch fr (linkRxState evs s)).peerValid = s.peerValid := by
  obtain ⟨haddr, hvalid⟩ := frameDispatch_peer fr (linkRxState evs s)
  have hout := sameOutside_linkRxState evs s
  exact ⟨haddr.trans hout.peerAddr, hvalid.trans hout.peerValid⟩

/-- A frame goes to the peer known when its batch is taken, or nowhere. -/
theorem netOutsOf_frameDispatch_linkRxState {fr : FrameRecord} (evs : List PulseEvent) (s : State)
    (hpos : 1 ≤ fr.bytes.length) :
    netOutsOf (frameDispatch fr (linkRxState evs s)).out =
      netOutsOf s.out ++ if s.peerValid then [(s.peerAddr, fr.bytes)] else [] := by
  cases hpeer : s.peerValid
  · rw [out_frameDispatch_linkRxState_of_noPeer evs hpos hpeer, netOutsOf_append]
    rfl
  · rw [out_frameDispatch_linkRxState_of_peer evs hpos hpeer, netOutsOf_append]
    rfl

/-- No message sends anything on `NET_OUT`. -/
theorem netOutsOf_netDispatch (m : NetMessage) (s : State) : netOutsOf (netDispatch m s).out = netOutsOf s.out := by
  rw [netDispatch_out, netOutsOf_append, netOutsOf_netOutputs, List.append_nil]

/-! ### O45 -/

/-- A batch is decoded after the payload beside it, whose sender is the peer by then. -/
theorem pollIteration_netFirst_of_both {s : State} {m : NetMessage} {msgs : List NetMessage} {words : List Nat}
    {rest : List (List Nat)} {evs : List PulseEvent} (hn : s.netIn = m :: msgs) (hfit : m.sender < 2 ^ s.cfg.peerW)
    (hl : s.linkRx = words :: rest) (hd : decodeBatch s.cfg words = .ok evs) :
    pollIteration .netFirst s = .next (frameDispatch (linkRxRecord evs s)
      (linkRxState evs (withLinkRx rest (netDispatch m (withNetIn msgs s))))) := by
  have hkept := netDispatch_kept m (withNetIn msgs s)
  rw [pollIteration, netStep_message hn ((fitsPeer_iff _ _).mpr hfit), andThen,
    linkStep_batch (hkept.linkRx.trans hl) (by rw [hkept.cfg]; exact hd),
    linkRxRecord_congr evs (t := s) hkept.cfg hkept.frameBuf]

/-- A batch is decoded before the payload beside it. -/
theorem pollIteration_linkFirst_of_both {s : State} {m : NetMessage} {msgs : List NetMessage} {words : List Nat}
    {rest : List (List Nat)} {evs : List PulseEvent} (hn : s.netIn = m :: msgs) (hfit : m.sender < 2 ^ s.cfg.peerW)
    (hl : s.linkRx = words :: rest) (hd : decodeBatch s.cfg words = .ok evs) :
    pollIteration .linkFirst s = .next (netDispatch m (withNetIn msgs
      (frameDispatch (linkRxRecord evs s) (linkRxState evs (withLinkRx rest s))))) := by
  have hstep := linkStep_batch hl hd
  have hkept := linkStep_kept hstep
  rw [pollIteration, hstep, andThen,
    netStep_message (hkept.netIn.trans hn) ((fitsPeer_iff _ _).mpr (by rw [hkept.cfg]; exact hfit))]

/-- Settles O45: the payload sends nothing on `NET_OUT`, and the peer the frame meets is the new one under NET_FIRST
and the old one under LINK_FIRST. -/
theorem sameIterationRace : Obligations.SameIterationRace := by
  intro s m msgs words rest evs hc hb hn hfit hmax hl hd hwin
  have hpos := one_le_length_linkRxRecord hc hwin
  obtain ⟨hnew, hknown⟩ := netDispatch_peer m (withNetIn msgs s) hmax
  obtain ⟨haddr, hvalid⟩ := peer_frameDispatch_linkRxState (linkRxRecord evs s) evs
    (withLinkRx rest (netDispatch m (withNetIn msgs s)))
  have hkept := linkStep_kept (linkStep_batch hl hd)
  obtain ⟨haddr', hvalid'⟩ := netDispatch_peer m
    (withNetIn msgs (frameDispatch (linkRxRecord evs s) (linkRxState evs (withLinkRx rest s))))
    (hmax.trans_eq (congrArg Config.maxPayload hkept.cfg.symm))
  refine ⟨_, _, (linkRxRecord evs s).bytes,
    (exec_poll_of_booted _ hc hb).trans (pollIteration_netFirst_of_both hn hfit hl hd),
    (exec_poll_of_booted _ hc hb).trans (pollIteration_linkFirst_of_both hn hfit hl hd),
    ?_, fun hpeer => ?_, fun hpeer => ?_, hpos, haddr.trans hnew, haddr', hvalid.trans hknown, hvalid'⟩
  · refine (netOutsOf_frameDispatch_linkRxState evs _ hpos).trans (congrArg₂ _ (netOutsOf_netDispatch m _) ?_)
    exact (if_pos hknown).trans (congrArg (fun a => [(a, (linkRxRecord evs s).bytes)]) hnew)
  · refine (netOutsOf_netDispatch m _).trans ((netOutsOf_frameDispatch_linkRxState evs _ hpos).trans ?_)
    exact congrArg _ (if_pos hpeer)
  · refine (netOutsOf_netDispatch m _).trans ((netOutsOf_frameDispatch_linkRxState evs _ hpos).trans ?_)
    rw [if_neg (by simp [withLinkRx, hpeer]), List.append_nil]
    rfl

/-! ### O46, O47 and O48 -/

/-- A batch of a payload's own words is forwarded to the peer as the payload (R127, R170). -/
theorem pollIteration_of_encodedBatch (ord : Order) {s : State} {p : List Byte} (hc : cfgLegal s.cfg = true)
    (hw : Memory.wf s.frameBuf = true) (hn : s.netIn = []) (hl : s.linkRx = [batchWords s.cfg (encodeBytes s.cfg p)])
    (hpeer : s.peerValid = true) (hpos : 1 ≤ p.length) (hmax : p.length ≤ s.cfg.frameMax) :
    ∃ u r, pollIteration ord s = .next u ∧ u.out = s.out ++ [.netOut s.peerAddr p, .logOut r] := by
  have hd := decodeBatch_batchWords s.cfg (encodeBytes s.cfg p) fun e he => duration_lt_of_mem_encodeBytes hc he
  have hbytes : (linkRxRecord (encodeBytes s.cfg p) s).bytes = p := by
    rw [linkRxRecord_encodeBytes s p hc hw]
    exact List.take_of_length_le hmax
  have hsent := out_frameDispatch_linkRxState_of_peer (fr := linkRxRecord (encodeBytes s.cfg p) s)
    (encodeBytes s.cfg p) (s := withLinkRx [] s) (by rw [hbytes]; exact hpos) hpeer
  rw [hbytes] at hsent
  exact ⟨_, _, pollIteration_of_batch ord hn hl hd, hsent⟩

/-- Settles O46: the words sent are those of a batch whose record is the payload, and the peer is its sender. -/
theorem payloadComesBackToItsSender : Obligations.PayloadComesBackToItsSender := by
  intro s a p ord ord' hc hb hw hn hl hfit hpos hmax hframe
  have hpoll := pollIteration_of_message ord hn hl hfit
  have hkept := netDispatch_kept ⟨a, p⟩ (withNetIn [] s)
  obtain ⟨haddr, hvalid⟩ := netDispatch_peer ⟨a, p⟩ (withNetIn [] s) hmax
  have hsent := netDispatch_out ⟨a, p⟩ (withNetIn [] s)
  rw [netOutputs_of_accepted hmax] at hsent
  generalize netDispatch ⟨a, p⟩ (withNetIn [] s) = t at hpoll hkept haddr hvalid hsent
  have hcfg : t.cfg = s.cfg := hkept.cfg
  have hc' : cfgLegal t.cfg = true := by rw [hcfg]; exact hc
  obtain ⟨u, r, hu, hout⟩ := pollIteration_of_encodedBatch ord' (p := p)
    (s := withLinkRx [txWords s.cfg p ++ [eobWord s.cfg 0]] t) hc' (hkept.frameBuf ▸ hw) hkept.netIn
    (by rw [← hcfg]; rfl) hvalid hpos (by rw [← hcfg] at hframe; exact hframe)
  have hpoll' := exec_poll_of_booted (s := withLinkRx [txWords s.cfg p ++ [eobWord s.cfg 0]] t) ord' hc'
    (hkept.booted.trans hb)
  refine ⟨t, u, txWords s.cfg p, _, r, (exec_poll_of_booted ord hc hb).trans hpoll, hsent, ?_,
    hpoll'.trans hu, hout.trans ?_⟩
  · rw [txWords, List.length_map, length_encodeBytes]
  · exact congrArg (fun x => t.out ++ [Output.netOut x p, .logOut r]) haddr

/-- Settles O47: without a peer a record that holds a byte is only logged. -/
theorem iterationDropsFrameWithoutPeer : Obligations.IterationDropsFrameWithoutPeer := by
  intro s ord words evs hc hb hn hl hd hwin hpeer
  have hsent := out_frameDispatch_linkRxState_of_noPeer evs (s := withLinkRx [] s)
    (one_le_length_linkRxRecord hc hwin) hpeer
  exact ⟨_, _, (exec_poll_of_booted ord hc hb).trans (pollIteration_of_batch ord hn hl hd), hsent, rfl, rfl,
    length_linkRxRecord evs s⟩

/-- Settles O48: fewer than sixteen windows complete no byte, so the record is skipped. -/
theorem iterationIsSilentOnEmptyFrame : Obligations.IterationIsSilentOnEmptyFrame := by
  intro s ord words evs hc hb hn hl hd hwin
  have hempty : (linkRxRecord evs s).bytes.length = 0 := by rw [length_linkRxRecord]; omega
  have hout := sameOutside_linkRxState evs (withLinkRx [] s)
  refine ⟨linkRxState evs (withLinkRx [] s), ?_, hout.out, hout.peerAddr, hout.peerValid⟩
  rw [exec_poll_of_booted ord hc hb, pollIteration_of_batch ord hn hl hd, frameDispatch_of_empty hempty]

end Sys2Proof.Machine
end

section
/-! PROOFS. What operations leave unchanged (10_state.md section 2, 20_memory.md section 1): the encoder's and the
bridge's, the decoder's, LINK_RX and a whole iteration. -/

namespace Sys2Proof.Machine

/-! ### O49 -/

/-- A returned value is no part of the decoder (log 8). -/
theorem sameDecoder_withResult (r : Returned) (s : State) : SameDecoder s { s with result := r } :=
  ⟨rfl, rfl, rfl, rfl, rfl, fun _ => rfl⟩

/-- The bridge's operations leave the decoder and its buffer. -/
theorem BridgeKept.sameDecoder {s t : State} (h : BridgeKept s t) : SameDecoder s t :=
  ⟨h.phase, h.accBits, h.accValue, h.frameLen, h.frameTrunc, fun i => by rw [h.frameBuf]⟩

theorem netStep_sameDecoder {s t : State} (h : netStep s = .next t) : SameDecoder s t :=
  have hk := netStep_kept h
  ⟨hk.phase, hk.accBits, hk.accValue, hk.frameLen, hk.frameTrunc, hk.sameDecoder.frameBuf⟩

theorem partOf_eq_encoder_iff (i : Instr) :
    partOf i = .encoder ↔ (∃ bs, i = .encode bs) ∨ i = .encBit1 ∨ i = .encBit0 := by
  cases i <;> simp [partOf]

/-- Settles O49: an operation of these parts is the encoder's result, a message or a frame record at the bridge. -/
theorem encoderAndBridgeFrame : Obligations.EncoderAndBridgeFrame := by
  intro i s t h hi
  have hpart : partOf i = .encoder ∨ partOf i = .network ∨ partOf i = .frame := by
    rcases hi with ⟨_, rfl⟩ | rfl | rfl | ⟨_, rfl⟩ | ⟨_, rfl⟩ | ⟨_, rfl⟩ | ⟨_, rfl⟩ | ⟨_, rfl⟩ | ⟨_, rfl⟩ | ⟨_, rfl⟩
    all_goals simp [partOf]
  cases runs_of_exec h with
  | reset => simp [partOf] at hpart
  | iteration => simp [partOf] at hpart
  | decoder hd => simp [hd] at hpart
  | encoder he r =>
    refine ⟨sameDecoder_withResult r s, rfl, rfl, rfl, rfl, rfl, rfl, fun _ _ => ⟨rfl, rfl⟩, fun _ => rfl,
      fun hencode hbit1 hbit0 => ?_⟩
    obtain ⟨bs, rfl⟩ | rfl | rfl := (partOf_eq_encoder_iff i).mp he
    · exact absurd rfl (hencode bs)
    · exact absurd rfl hbit1
    · exact absurd rfl hbit0
  | @network _ m hm =>
    have hk := netDispatch_kept m s
    refine ⟨hk.sameDecoder, hk.cfg, hk.netIn, hk.linkRx, hk.stimulus, hk.drawCount, hk.booted, fun hfull hempty => ?_,
      fun hsilent => ?_, fun _ _ _ => hk.result⟩
    · obtain ⟨-, ⟨hover, rfl⟩ | ⟨-, rfl⟩ | ⟨-, rfl⟩⟩ := decodeNetMessage_eq_ok hm
      · exact netDispatch_peer_oversize m s hover
      · exact absurd rfl (hempty _)
      · exact absurd rfl (hfull _)
    · obtain ⟨-, ⟨-, rfl⟩ | ⟨-, rfl⟩ | ⟨-, rfl⟩⟩ := decodeNetMessage_eq_ok hm <;> simp at hsilent
  | @frame _ fr hfr =>
    have hk := frameDispatch_kept fr s
    refine ⟨hk.sameDecoder, hk.cfg, hk.netIn, hk.linkRx, hk.stimulus, hk.drawCount, hk.booted,
      fun _ _ => frameDispatch_peer fr s, fun hsilent => ?_, fun _ _ _ => hk.result⟩
    obtain ⟨-, ⟨hempty, rfl⟩ | ⟨-, ⟨-, rfl⟩ | ⟨-, -, rfl⟩ | ⟨-, -, rfl⟩⟩⟩ := decodeFrame_eq_ok hfr
    · rw [frameDispatch_of_empty hempty]
    all_goals simp at hsilent

/-! ### The byte a window stores -/

/-- A flush writes at `frame_len` only, and only with room (R97, R98). -/
theorem read_byteFlush {s : State} {a : Nat} (h : s.frameLen < s.cfg.frameMax → s.frameLen ≠ a) :
    Memory.read (byteFlush s).frameBuf a = Memory.read s.frameBuf a := by
  rcases Nat.lt_or_ge s.frameLen s.cfg.frameMax with hroom | hfull
  · rw [byteFlush_of_room hroom]
    exact Memory.read_write_other _ _ _ _ (h hroom).symm
  · rw [byteFlush_of_full hfull]

/-- A bit resolved writes the buffer only as the eighth of its byte. -/
theorem read_resolve (level : Bool) {s : State} {a : Nat}
    (h : s.accBits = 7 → s.frameLen < s.cfg.frameMax → s.frameLen ≠ a) :
    Memory.read (resolve level s).frameBuf a = Memory.read s.frameBuf a := by
  unfold resolve
  split_ifs with heighth
  · exact read_byteFlush (s := appendBit level s) (h (by omega))
  · rfl

/-- A window writes the buffer only in its second half. -/
theorem read_halfBit (level : Bool) {s : State} {a : Nat}
    (h : s.phase = true → s.accBits = 7 → s.frameLen < s.cfg.frameMax → s.frameLen ≠ a) :
    Memory.read (halfBit level s).frameBuf a = Memory.read s.frameBuf a := by
  cases hp : s.phase
  · rw [halfBit_of_firstHalf level hp, togglePhase_frameBuf]
  · rw [halfBit_of_secondHalf level hp, togglePhase_frameBuf, read_resolve level (h hp)]

/-- Of the two windows of a long event one resolves a bit, whichever half the event begins in. -/
theorem read_evLong (level : Bool) {s : State} {a : Nat}
    (h : s.accBits = 7 → s.frameLen < s.cfg.frameMax → s.frameLen ≠ a) :
    Memory.read (evLong level s).frameBuf a = Memory.read s.frameBuf a := by
  rw [evLong]
  cases hp : s.phase
  · rw [halfBit_of_firstHalf level hp]
    exact read_halfBit level (s := togglePhase s) fun _ => h
  · rw [read_halfBit level fun hsecond => by simp [hp] at hsecond, read_halfBit level fun _ => h]

/-! ### O50 -/

theorem storedIndex_evShort_ne_some_iff (level : Bool) (d : Nat) (s : State) (a : Nat) :
    storedIndex (.evShort level d) s ≠ some a ↔
      (s.phase = true → s.accBits = 7 → s.frameLen < s.cfg.frameMax → s.frameLen ≠ a) := by
  simp [storedIndex]

theorem storedIndex_evLong_ne_some_iff (level : Bool) (d : Nat) (s : State) (a : Nat) :
    storedIndex (.evLong level d) s ≠ some a ↔
      (s.accBits = 7 → s.frameLen < s.cfg.frameMax → s.frameLen ≠ a) := by
  simp [storedIndex]

theorem storedIndex_byteFlush_ne_some_iff (s : State) (a : Nat) :
    storedIndex .byteFlush s ≠ some a ↔ (s.frameLen < s.cfg.frameMax → s.frameLen ≠ a) := by
  simp [storedIndex]

/-- Settles O50: outside the decoder everything is kept, and each operation's store is at the index said. -/
theorem decoderOperationsFrame : Obligations.DecoderOperationsFrame := by
  intro i s t h hi
  obtain ⟨-, -, -, heff⟩ := (exec_next_iff i s t).mp h
  rcases hi with ⟨l, d, rfl⟩ | ⟨l, d, rfl⟩ | ⟨l, d, rfl⟩ | ⟨r, rfl⟩ | ⟨l, rfl⟩ | rfl <;> cases heff
  · exact ⟨sameOutside_halfBit l s, fun a ha => read_halfBit l ((storedIndex_evShort_ne_some_iff l d s a).mp ha),
      fun _ => halfBit_result l s⟩
  · exact ⟨(sameOutside_halfBit l s).trans (sameOutside_halfBit l _),
      fun a ha => read_evLong l ((storedIndex_evLong_ne_some_iff l d s a).mp ha), fun _ => by simp [evLong]⟩
  · exact ⟨sameOutside_note .noise s, fun _ _ => rfl, fun _ => rfl⟩
  · exact ⟨((decoderStep_endOfBatch s).withResult _).outside, fun a _ => by rw [endOfBatch_frameBuf],
      fun hr => absurd rfl (hr r)⟩
  · exact ⟨sameOutside_halfBit l s, fun a ha => read_halfBit l ((storedIndex_evShort_ne_some_iff l 0 s a).mp ha),
      fun _ => halfBit_result l s⟩
  · exact ⟨sameOutside_byteFlush s, fun a ha => read_byteFlush ((storedIndex_byteFlush_ne_some_iff s a).mp ha),
      fun _ => byteFlush_result s⟩

/-! ### O51 -/

/-- The buffer grows at its end: nothing at or above the length reached is written. -/
structure StoresBelow (s t : State) : Prop where
  grows : s.frameLen ≤ t.frameLen
  above : ∀ a, t.frameLen ≤ a → Memory.read t.frameBuf a = Memory.read s.frameBuf a

theorem StoresBelow.trans {s t u : State} (h : StoresBelow s t) (k : StoresBelow t u) : StoresBelow s u :=
  ⟨h.grows.trans k.grows, fun a ha => (k.above a ha).trans (h.above a (k.grows.trans ha))⟩

theorem storesBelow_resolve (level : Bool) (s : State) : StoresBelow s (resolve level s) := by
  unfold resolve
  split_ifs
  · rcases Nat.lt_or_ge s.frameLen s.cfg.frameMax with hroom | hfull
    · rw [byteFlush_of_room (s := appendBit level s) hroom]
      exact ⟨Nat.le_succ _, fun a ha => Memory.read_write_other _ _ _ _ (Nat.ne_of_gt ha)⟩
    · rw [byteFlush_of_full (s := appendBit level s) hfull]
      exact ⟨le_rfl, fun _ _ => rfl⟩
  · exact ⟨le_rfl, fun _ _ => rfl⟩

theorem storesBelow_halfBit (level : Bool) (s : State) : StoresBelow s (halfBit level s) := by
  cases hp : s.phase
  · rw [halfBit_of_firstHalf level hp]
    exact ⟨le_rfl, fun _ _ => rfl⟩
  · rw [halfBit_of_secondHalf level hp]
    exact ⟨(storesBelow_resolve level s).grows, (storesBelow_resolve level s).above⟩

theorem storesBelow_event (s : State) (e : PulseEvent) : StoresBelow s (event s e) := by
  cases hk : classify s.cfg e.duration
  · rw [event_of_short hk]
    exact storesBelow_halfBit _ s
  · rw [event_of_long hk]
    exact (storesBelow_halfBit _ s).trans (storesBelow_halfBit _ _)
  · rw [event_of_noise hk]
    exact ⟨le_rfl, fun _ _ => rfl⟩

theorem storesBelow_events (evs : List PulseEvent) (s : State) : StoresBelow s (events evs s) := by
  induction evs generalizing s with
  | nil => exact ⟨le_rfl, fun _ _ => rfl⟩
  | cons e evs ih => exact (storesBelow_event s e).trans (ih (event s e))

/-- A batch writes the bytes it completes, from the first on. -/
theorem read_linkRxState (evs : List PulseEvent) {s : State} {a : Nat} (ha : bytesStored s.cfg evs ≤ a) :
    Memory.read (linkRxState evs s).frameBuf a = Memory.read s.frameBuf a := by
  rw [linkRxState, endOfBatch_frameBuf]
  exact (storesBelow_events evs (batchStart s)).above a ((paced_batchDecoded evs s).frameLen.trans_le ha)

/-- Settles O51: the decoder's length at the end of the batch is the number of bytes stored. -/
theorem linkRxFrame : Obligations.LinkRxFrame := by
  intro evs s t h
  obtain ⟨-, -, -, heff⟩ := (exec_next_iff _ s t).mp h
  cases heff
  exact ⟨((decoderStep_linkRxState evs s).withResult _).outside, endOfBatch_atRest (batchDecoded evs s),
    fun a ha => read_linkRxState evs ha⟩

/-! ### O52 -/

/-- What both checks keep. -/
structure CheckKept (s t : State) : Prop where
  cfg : t.cfg = s.cfg
  stimulus : t.stimulus = s.stimulus
  drawCount : t.drawCount = s.drawCount
  booted : t.booted = s.booted
  result : t.result = s.result

theorem CheckKept.trans {s t u : State} (h : CheckKept s t) (k : CheckKept t u) : CheckKept s u :=
  ⟨k.cfg.trans h.cfg, k.stimulus.trans h.stimulus, k.drawCount.trans h.drawCount, k.booted.trans h.booted,
    k.result.trans h.result⟩

/-- What both checks do from every state, in a relation that composes, an iteration does. -/
theorem pollIteration_rel {R : State → State → Prop} (htrans : ∀ {s t u}, R s t → R t u → R s u)
    (hnet : ∀ {s t}, netStep s = .next t → R s t) (hlink : ∀ {s t}, linkStep s = .next t → R s t)
    {ord : Order} {s t : State} (h : pollIteration ord s = .next t) : R s t := by
  cases ord with
  | netFirst =>
    obtain ⟨u, hu, ht⟩ := (pollIteration_netFirst_next_iff s t).mp h
    exact htrans (hnet hu) (hlink ht)
  | linkFirst =>
    obtain ⟨u, hu, ht⟩ := (pollIteration_linkFirst_next_iff s t).mp h
    exact htrans (hlink hu) (hnet ht)

theorem pollIteration_kept {ord : Order} {s t : State} (h : pollIteration ord s = .next t) : CheckKept s t :=
  pollIteration_rel (R := CheckKept) CheckKept.trans
    (fun h => have k := netStep_kept h; ⟨k.cfg, k.stimulus, k.drawCount, k.booted, k.result⟩)
    (fun h => have k := linkStep_kept h; ⟨k.cfg, k.stimulus, k.drawCount, k.booted, k.result⟩) h

/-- A batch leaves the decoder at rest and the buffer above the bytes it stores. -/
structure BatchTaken (stored : Nat) (s t : State) : Prop where
  rest : DecoderAtRest t
  above : ∀ a, stored ≤ a → Memory.read t.frameBuf a = Memory.read s.frameBuf a

theorem linkStep_batchTaken {s t : State} {words : List Nat} {rest : List (List Nat)} {evs : List PulseEvent}
    (hl : s.linkRx = words :: rest) (hd : decodeBatch s.cfg words = .ok evs) (h : linkStep s = .next t) :
    BatchTaken (bytesStored s.cfg evs) s t := by
  rw [linkStep_batch hl hd] at h
  cases h
  have hk := frameDispatch_kept (linkRxRecord evs s) (linkRxState evs (withLinkRx rest s))
  refine ⟨⟨hk.phase, hk.accBits, hk.accValue, hk.frameLen, hk.frameTrunc⟩, fun a ha => ?_⟩
  rw [hk.frameBuf]
  exact read_linkRxState (s := withLinkRx rest s) evs ha

/-- The network check leaves the decoder, so what is said of the decoder before it holds after it, and the other way
round. -/
theorem pollIteration_batchTaken {ord : Order} {s t : State} {words : List Nat} {rest : List (List Nat)}
    {evs : List PulseEvent} (hl : s.linkRx = words :: rest) (hd : decodeBatch s.cfg words = .ok evs)
    (h : pollIteration ord s = .next t) : BatchTaken (bytesStored s.cfg evs) s t := by
  cases ord with
  | netFirst =>
    obtain ⟨u, hu, ht⟩ := (pollIteration_netFirst_next_iff s t).mp h
    have hk := netStep_kept hu
    have hcfg : u.cfg = s.cfg := hk.cfg
    have hbuf : u.frameBuf = s.frameBuf := hk.frameBuf
    obtain ⟨hrest, habove⟩ := linkStep_batchTaken (hk.linkRx.trans hl) (hcfg ▸ hd) ht
    exact ⟨hrest, fun a ha => (habove a (by rw [hcfg]; exact ha)).trans (by rw [hbuf])⟩
  | linkFirst =>
    obtain ⟨u, hu, ht⟩ := (pollIteration_linkFirst_next_iff s t).mp h
    have hk := netStep_kept ht
    obtain ⟨⟨hphase, hbits, hvalue, hlen, htrunc⟩, habove⟩ := linkStep_batchTaken hl hd hu
    refine ⟨⟨hk.phase.trans hphase, hk.accBits.trans hbits, hk.accValue.trans hvalue, hk.frameLen.trans hlen,
      hk.frameTrunc.trans htrunc⟩, fun a ha => ?_⟩
    rw [hk.frameBuf]
    exact habove a ha

/-- Settles O52: the decoder is the transport check's, the peer the network check's. -/
theorem iterationFrame : Obligations.IterationFrame := by
  intro ord s t h
  obtain ⟨-, -, hpoll⟩ := (exec_poll_next_iff ord s t).mp h
  obtain ⟨hcfg, hstim, hdraw, hboot, hres⟩ := pollIteration_kept hpoll
  refine ⟨hcfg, hstim, hdraw, hboot, hres, fun hl => ?_, fun words rest evs hl hd => ?_, fun hn => ?_⟩
  · rw [pollIteration_of_linkRx_nil ord hl] at hpoll
    exact netStep_sameDecoder hpoll
  · obtain ⟨hrest, habove⟩ := pollIteration_batchTaken hl hd hpoll
    exact ⟨hrest, habove⟩
  · rw [pollIteration_of_netIn_nil ord hn] at hpoll
    exact ⟨(linkStep_kept hpoll).peerAddr, (linkStep_kept hpoll).peerValid⟩

end Sys2Proof.Machine
end

section
/-! PROOFS. Whole-machine rules and invariants: what every step keeps (10_state.md R22 to R35), who sets the peer
(R130), and how many messages an operation and an iteration emit (20_memory.md R46, 43_bridge.md R133, R134). -/

namespace Sys2Proof.Machine

/-! ### One step -/

@[simp] theorem fetch_cfg (s : State) : (fetch s).2.cfg = s.cfg := by
  unfold fetch
  split <;> rfl

@[simp] theorem fetch_out (s : State) : (fetch s).2.out = s.out := by
  unfold fetch
  split <;> rfl

theorem fetch_of_nil {s : State} (h : s.stimulus = []) :
    fetch s = (.tick (Config.freeOrder s.drawCount), { s with drawCount := s.drawCount + 1 }) := by
  simp only [fetch, h]

theorem fetch_of_cons {s : State} {st : Stimulus} {rest : List Stimulus} (h : s.stimulus = st :: rest) :
    fetch s = (st.select, arrive st { s with stimulus := rest }) := by
  simp only [fetch, h]

theorem step_of_ok {s : State} {i : Instr} (h : decode s.cfg (fetch s).1 = .ok i) :
    step s = exec i (fetch s).2 := by
  simp only [step, fetch_cfg, h]

theorem step_of_error {s : State} {r : Reject} (h : decode s.cfg (fetch s).1 = .error r) :
    step s = .refused (.rejected r) := by
  simp only [step, fetch_cfg, h]

/-- A step that goes on has run the operation selected. -/
theorem exists_exec_of_step {s t : State} (h : step s = .next t) :
    ∃ i, decode s.cfg (fetch s).1 = .ok i ∧ exec i (fetch s).2 = .next t := by
  cases hd : decode s.cfg (fetch s).1 with
  | error r =>
    rw [step_of_error hd] at h
    cases h
  | ok i => exact ⟨i, rfl, (step_of_ok hd).symm.trans h⟩

/-- Settles O6: the four ways a step selects, by what stands first in the stimulus. -/
theorem stepRunsTheSelectedOperation : Obligations.StepRunsTheSelectedOperation := by
  refine ⟨fun s st rest i hs hd => ?_, fun s hs => ?_, fun s st rest r hs hd => ?_, fun s nbits w i hd => ?_⟩
  · rw [step_of_ok (by rw [fetch_of_cons hs]; exact hd), fetch_of_cons hs]
    rfl
  · rw [step_of_ok (by rw [fetch_of_nil hs]; rfl), fetch_of_nil hs]
  · exact step_of_error (by rw [fetch_of_cons hs]; exact hd)
  · have hs : (s.withFetchWord nbits w).stimulus = { select := wordSelector nbits w } :: s.stimulus := rfl
    rw [step_of_ok (by rw [fetch_of_cons hs]; exact hd), fetch_of_cons hs]
    simp [arrive, State.withFetchWord, presentWord]

/-! ### The configuration and the outputs -/

/-- The configuration is kept and the outputs are only appended to (R31, R55). -/
structure Extends (s t : State) : Prop where
  cfg : t.cfg = s.cfg
  out : ∃ os, t.out = s.out ++ os

theorem Extends.trans {s t u : State} (h : Extends s t) (k : Extends t u) : Extends s u := by
  obtain ⟨hcfg, os, hos⟩ := h
  obtain ⟨kcfg, ps, hps⟩ := k
  exact ⟨kcfg.trans hcfg, os ++ ps, by rw [hps, hos, List.append_assoc]⟩

/-- Where nothing is emitted. -/
theorem Extends.of_eq {s t : State} (hcfg : t.cfg = s.cfg) (hout : t.out = s.out) : Extends s t :=
  ⟨hcfg, [], by rw [hout, List.append_nil]⟩

theorem netStep_extends {s t : State} (h : netStep s = .next t) : Extends s t := by
  obtain ⟨-, rfl⟩ | ⟨m, rest, -, -, rfl⟩ := netStep_cases h
  · exact .of_eq rfl rfl
  · exact ⟨(netDispatch_kept m _).cfg, _, netDispatch_out m _⟩

theorem linkStep_extends {s t : State} (h : linkStep s = .next t) : Extends s t := by
  refine ⟨(linkStep_kept h).cfg, ?_⟩
  obtain ⟨-, rfl⟩ | ⟨words, rest, evs, -, -, rfl⟩ := linkStep_cases h
  · exact ⟨[], (List.append_nil _).symm⟩
  · rw [frameDispatch_out, (sameOutside_linkRxState evs _).out]
    exact ⟨_, rfl⟩

theorem exec_extends {i : Instr} {s t : State} (h : exec i s = .next t) : Extends s t := by
  cases runs_of_exec h with
  | reset => exact .of_eq rfl rfl
  | iteration hpoll => exact pollIteration_rel (R := Extends) Extends.trans netStep_extends linkStep_extends hpoll
  | @network _ m _ => exact ⟨(netDispatch_kept m s).cfg, _, netDispatch_out m s⟩
  | encoder _ r => exact .of_eq rfl rfl
  | decoder _ hd => exact .of_eq hd.outside.cfg hd.outside.out
  | @frame _ fr _ => exact ⟨(frameDispatch_kept fr s).cfg, _, frameDispatch_out fr s⟩

/-- Settles O54: fetching writes neither field, and every operation extends. -/
theorem stepKeepsConfigurationAndOutputs : Obligations.StepKeepsConfigurationAndOutputs := by
  intro s t h
  obtain ⟨i, -, hi⟩ := exists_exec_of_step h
  obtain ⟨hcfg, hout⟩ := exec_extends hi
  rw [fetch_cfg] at hcfg
  rw [fetch_out] at hout
  exact ⟨hcfg, hout⟩

/-! ### The peer -/

/-- The peer is as before. -/
def PeerKept (s t : State) : Prop := t.peerAddr = s.peerAddr ∧ t.peerValid = s.peerValid

/-- The peer is the sender of an accepted payload (R130). -/
def PeerIsSender (m : NetMessage) (s t : State) : Prop :=
  m.payload.length ≤ s.cfg.maxPayload ∧ t.peerAddr = m.sender ∧ t.peerValid = true

theorem netDispatch_peer_cases (m : NetMessage) (s : State) :
    PeerKept s (netDispatch m s) ∨ PeerIsSender m s (netDispatch m s) := by
  rcases Nat.lt_or_ge s.cfg.maxPayload m.payload.length with hover | hmax
  · exact .inl (netDispatch_peer_oversize m s hover)
  · exact .inr ⟨hmax, netDispatch_peer m s hmax⟩

theorem netStep_peer_cases {s t : State} (h : netStep s = .next t) :
    PeerKept s t ∨ ∃ m msgs, s.netIn = m :: msgs ∧ PeerIsSender m s t := by
  obtain ⟨-, rfl⟩ | ⟨m, rest, hn, -, rfl⟩ := netStep_cases h
  · exact .inl ⟨rfl, rfl⟩
  · exact (netDispatch_peer_cases m (withNetIn rest s)).imp id fun hm => ⟨m, rest, hn, hm⟩

/-- The transport check keeps the peer, the configuration and `NET_IN`, so an iteration does with the peer what its
network check does. -/
theorem pollIteration_peer_cases {ord : Order} {s t : State} (h : pollIteration ord s = .next t) :
    PeerKept s t ∨ ∃ m msgs, s.netIn = m :: msgs ∧ PeerIsSender m s t := by
  cases ord with
  | netFirst =>
    obtain ⟨u, hu, ht⟩ := (pollIteration_netFirst_next_iff s t).mp h
    have hk := linkStep_kept ht
    simp only [PeerKept, PeerIsSender, hk.peerAddr, hk.peerValid]
    exact netStep_peer_cases hu
  | linkFirst =>
    obtain ⟨u, hu, ht⟩ := (pollIteration_linkFirst_next_iff s t).mp h
    have hk := linkStep_kept hu
    simp only [PeerKept, PeerIsSender, ← hk.peerAddr, ← hk.peerValid, ← hk.netIn, ← hk.cfg]
    exact netStep_peer_cases ht

/-- What an operation can do with the peer: keep it, make it a sender, or forget it. -/
theorem exec_peer_cases {i : Instr} {s t : State} (h : exec i s = .next t) :
    PeerKept s t ∨
      (∃ m, PeerIsSender m s t ∧ (i = .netRx m ∨ (i = .netRxEmpty m.sender ∧ m.payload = []) ∨
        ∃ ord msgs, i = .poll ord ∧ s.netIn = m :: msgs)) ∨
      (i = .reset ∧ t.peerAddr = s.peerAddr ∧ t.peerValid = false) := by
  cases runs_of_exec h with
  | reset => exact .inr (.inr ⟨rfl, rfl, rfl⟩)
  | @iteration ord _ hpoll =>
    obtain hkept | ⟨m, msgs, hn, hm⟩ := pollIteration_peer_cases hpoll
    · exact .inl hkept
    · exact .inr (.inl ⟨m, hm, .inr (.inr ⟨ord, msgs, rfl, hn⟩)⟩)
  | @network _ m hm =>
    obtain hkept | hsender := netDispatch_peer_cases m s
    · exact .inl hkept
    · obtain ⟨-, ⟨hover, rfl⟩ | ⟨hempty, rfl⟩ | ⟨-, rfl⟩⟩ := decodeNetMessage_eq_ok hm
      · exact absurd hsender.1 (Nat.not_le.mpr hover)
      · exact .inr (.inl ⟨m, hsender, .inr (.inl ⟨rfl, hempty⟩)⟩)
      · exact .inr (.inl ⟨m, hsender, .inl rfl⟩)
  | encoder _ r => exact .inl ⟨rfl, rfl⟩
  | decoder _ hd => exact .inl ⟨hd.outside.peerAddr, hd.outside.peerValid⟩
  | @frame _ fr _ => exact .inl (frameDispatch_peer fr s)

/-- Settles O53: of the three things an operation can do with the peer, only one changes or sets it, and only one
clears it. -/
theorem onlyAcceptedPayloadsSetThePeer : Obligations.OnlyAcceptedPayloadsSetThePeer := by
  intro i s t h
  obtain ⟨haddr, hvalid⟩ | ⟨m, ⟨hmax, haddr, hvalid⟩, hi⟩ | ⟨hi, haddr, hvalid⟩ := exec_peer_cases h
  · exact ⟨by simp [haddr, hvalid], fun hknown hlost => by simp [hvalid, hknown] at hlost⟩
  · exact ⟨fun _ => ⟨m, hmax, haddr, hvalid, hi⟩, by simp [hvalid]⟩
  · exact ⟨by simp [haddr, hvalid], fun _ _ => hi⟩

/-! ### How much is sent -/

/-- Outputs with at most so many messages and log records of each direction. -/
structure SendsAtMost (net link : Nat) (os : List Output) : Prop where
  linkTxs : (linkTxsOf os).length ≤ net
  netOuts : (netOutsOf os).length ≤ link
  netLogs : ((logsOf os).filter fun r => decide (r.direction = .netToLink)).length ≤ net
  linkLogs : ((logsOf os).filter fun r => decide (r.direction = .linkToNet)).length ≤ link

theorem SendsAtMost.append {m n k l : Nat} {xs ys : List Output} (hx : SendsAtMost m n xs)
    (hy : SendsAtMost k l ys) : SendsAtMost (m + k) (n + l) (xs ++ ys) := by
  constructor
  · simpa [linkTxsOf] using Nat.add_le_add hx.linkTxs hy.linkTxs
  · simpa [netOutsOf] using Nat.add_le_add hx.netOuts hy.netOuts
  · simpa [logsOf] using Nat.add_le_add hx.netLogs hy.netLogs
  · simpa [logsOf] using Nat.add_le_add hx.linkLogs hy.linkLogs

theorem sendsAtMost_nil (m n : Nat) : SendsAtMost m n [] :=
  ⟨Nat.zero_le _, Nat.zero_le _, Nat.zero_le _, Nat.zero_le _⟩

theorem sendsAtMost_netOutputs (c : Config) (m : NetMessage) : SendsAtMost 1 0 (netOutputs c m) := by
  unfold netOutputs
  split
  · exact ⟨Nat.zero_le _, le_rfl, le_rfl, le_rfl⟩
  · exact ⟨le_rfl, le_rfl, le_rfl, le_rfl⟩

theorem sendsAtMost_frameOutputs (fr : FrameRecord) (s : State) : SendsAtMost 0 1 (frameOutputs fr s) := by
  unfold frameOutputs
  split
  · exact sendsAtMost_nil 0 1
  · split
    · exact ⟨le_rfl, Nat.zero_le _, le_rfl, le_rfl⟩
    · exact ⟨le_rfl, le_rfl, le_rfl, le_rfl⟩

theorem netStep_sends {s t : State} (h : netStep s = .next t) :
    ∃ os, t.out = s.out ++ os ∧ SendsAtMost 1 0 os := by
  obtain ⟨-, rfl⟩ | ⟨m, rest, -, -, rfl⟩ := netStep_cases h
  · exact ⟨[], (List.append_nil _).symm, sendsAtMost_nil _ _⟩
  · exact ⟨_, netDispatch_out m _, sendsAtMost_netOutputs _ _⟩

theorem linkStep_sends {s t : State} (h : linkStep s = .next t) :
    ∃ os, t.out = s.out ++ os ∧ SendsAtMost 0 1 os := by
  obtain ⟨-, rfl⟩ | ⟨words, rest, evs, -, -, rfl⟩ := linkStep_cases h
  · exact ⟨[], (List.append_nil _).symm, sendsAtMost_nil _ _⟩
  · rw [frameDispatch_out, (sameOutside_linkRxState evs _).out]
    exact ⟨_, rfl, sendsAtMost_frameOutputs _ _⟩

/-- Settles O55: each check sends its own share, and an iteration runs each once. -/
theorem iterationSendsAtMostOneEach : Obligations.IterationSendsAtMostOneEach := by
  intro ord s t h
  obtain ⟨-, -, hpoll⟩ := (exec_poll_next_iff ord s t).mp h
  have hsends : ∃ os, t.out = s.out ++ os ∧ SendsAtMost 1 1 os := by
    cases ord with
    | netFirst =>
      obtain ⟨u, hu, ht⟩ := (pollIteration_netFirst_next_iff s t).mp hpoll
      obtain ⟨xs, hxs, hx⟩ := netStep_sends hu
      obtain ⟨ys, hys, hy⟩ := linkStep_sends ht
      exact ⟨xs ++ ys, by rw [hys, hxs, List.append_assoc], hx.append hy⟩
    | linkFirst =>
      obtain ⟨u, hu, ht⟩ := (pollIteration_linkFirst_next_iff s t).mp hpoll
      obtain ⟨xs, hxs, hx⟩ := linkStep_sends hu
      obtain ⟨ys, hys, hy⟩ := netStep_sends ht
      exact ⟨xs ++ ys, by rw [hys, hxs, List.append_assoc], hx.append hy⟩
  obtain ⟨os, hos, htx, hout, hnet, hlink⟩ := hsends
  exact ⟨os, hos, htx, hout, hnet, hlink⟩

/-- A message's outputs end with their one log record (R134). -/
theorem netOutputs_log (c : Config) (m : NetMessage) :
    ∃ r, (netOutputs c m).getLast? = some (.logOut r) ∧ logsOf (netOutputs c m) = [r] := by
  unfold netOutputs
  split_ifs <;> exact ⟨_, rfl, rfl⟩

/-- A non-empty frame's outputs end with their one log record (R134). -/
theorem frameOutputs_log {fr : FrameRecord} {s : State} (hpos : 1 ≤ fr.bytes.length) :
    ∃ r, (frameOutputs fr s).getLast? = some (.logOut r) ∧ logsOf (frameOutputs fr s) = [r] := by
  rw [frameOutputs, if_neg (by omega)]
  split_ifs <;> exact ⟨_, rfl, rfl⟩

/-- Settles O56: the six operations are those of a message and of a non-empty frame record; the others emit nothing. -/
theorem oneLogRecordPerLoggingOperation : Obligations.OneLogRecordPerLoggingOperation := by
  intro i s t h hpoll
  cases runs_of_exec h with
  | reset => exact ⟨[], (List.append_nil _).symm, by simp, fun _ => rfl⟩
  | iteration _ => exact absurd rfl (hpoll _)
  | @network _ m hm =>
    refine ⟨netOutputs s.cfg m, netDispatch_out m s, fun _ => netOutputs_log s.cfg m, fun hnot => absurd ?_ hnot⟩
    obtain ⟨-, ⟨-, rfl⟩ | ⟨-, rfl⟩ | ⟨-, rfl⟩⟩ := decodeNetMessage_eq_ok hm <;> simp
  | encoder he r =>
    refine ⟨[], (List.append_nil _).symm, fun hlogs => ?_, fun _ => rfl⟩
    rcases hlogs with ⟨_, rfl⟩ | ⟨_, rfl⟩ | ⟨_, rfl⟩ | ⟨_, rfl⟩ | ⟨_, rfl⟩ | ⟨_, rfl⟩ <;> cases he
  | decoder hi hd =>
    refine ⟨[], hd.outside.out.trans (List.append_nil _).symm, fun hlogs => ?_, fun _ => rfl⟩
    rcases hlogs with ⟨_, rfl⟩ | ⟨_, rfl⟩ | ⟨_, rfl⟩ | ⟨_, rfl⟩ | ⟨_, rfl⟩ | ⟨_, rfl⟩ <;> cases hi
  | @frame _ fr hfr =>
    refine ⟨frameOutputs fr s, frameDispatch_out fr s, ?_⟩
    obtain ⟨-, ⟨hempty, rfl⟩ | ⟨hpos, ⟨-, rfl⟩ | ⟨-, -, rfl⟩ | ⟨-, -, rfl⟩⟩⟩ := decodeFrame_eq_ok hfr
    · exact ⟨by simp, fun _ => if_pos hempty⟩
    all_goals exact ⟨fun _ => frameOutputs_log hpos, fun hnot => absurd (by simp) hnot⟩

/-! ### The invariant -/

theorem Inv.decoderRange {s : State} (h : Inv s) : DecoderRange s :=
  ⟨h.accBits, h.accClear, h.frameLen, h.frameTrunc⟩

theorem Inv.bufferOk {s : State} (h : Inv s) : BufferOk s :=
  ⟨h.bufWf, h.bufInside⟩

/-- The decoder's part of the invariant is its ranges and its buffer; the rest stands outside the decoder. -/
theorem Inv.of_decoderStep {s t : State} (h : Inv s) (hd : DecoderStep s t) : Inv t := by
  obtain ⟨hacc, hclear, hlen, htrunc⟩ := hd.range h.decoderRange
  obtain ⟨hwf, hinside⟩ := hd.buffer h.bufferOk
  exact
    { legal := by rw [hd.outside.cfg]; exact h.legal
      accBits := hacc
      accClear := hclear
      frameLen := hlen
      frameTrunc := htrunc
      bufWf := hwf
      bufInside := hinside
      peer := by rw [hd.outside.cfg, hd.outside.peerAddr]; exact h.peer
      outputs := by rw [hd.outside.cfg, hd.outside.out]; exact h.outputs }

/-- The bridge's part of the invariant is the peer and the outputs; the rest is kept by its operations. -/
theorem Inv.of_bridgeKept {s t : State} (h : Inv s) (hk : BridgeKept s t) (hpeer : fitsPeer s.cfg t.peerAddr = true)
    {os : List Output} (hout : t.out = s.out ++ os) (hos : ∀ o ∈ os, outputOk s.cfg o = true) : Inv t where
  legal := by rw [hk.cfg]; exact h.legal
  accBits := by rw [hk.accBits]; exact h.accBits
  accClear := by rw [hk.accBits, hk.accValue]; exact h.accClear
  frameLen := by rw [hk.frameLen, hk.cfg]; exact h.frameLen
  frameTrunc := by rw [hk.frameTrunc, hk.frameLen, hk.cfg]; exact h.frameTrunc
  bufWf := by rw [hk.frameBuf]; exact h.bufWf
  bufInside := by rw [hk.frameBuf, hk.cfg]; exact h.bufInside
  peer := by rw [hk.cfg]; exact hpeer
  outputs := by rw [hk.cfg, hout]; exact List.forall_mem_append.mpr ⟨h.outputs, hos⟩

theorem Inv.withNetIn {s : State} (h : Inv s) (l : List NetMessage) : Inv (Machine.withNetIn l s) :=
  ⟨h.legal, h.accBits, h.accClear, h.frameLen, h.frameTrunc, h.bufWf, h.bufInside, h.peer, h.outputs⟩

theorem Inv.withLinkRx {s : State} (h : Inv s) (l : List (List Nat)) : Inv (Machine.withLinkRx l s) :=
  ⟨h.legal, h.accBits, h.accClear, h.frameLen, h.frameTrunc, h.bufWf, h.bufInside, h.peer, h.outputs⟩

theorem Inv.withResult {s : State} (h : Inv s) (r : Returned) : Inv { s with result := r } :=
  ⟨h.legal, h.accBits, h.accClear, h.frameLen, h.frameTrunc, h.bufWf, h.bufInside, h.peer, h.outputs⟩

theorem Inv.resetCore {s : State} (h : Inv s) : Inv (Machine.resetCore s) :=
  have hr := decoderRange_batchStart s
  ⟨h.legal, hr.accBits, hr.accClear, hr.frameLen, hr.frameTrunc, h.bufWf, h.bufInside, h.peer, h.outputs⟩

/-- What arrives and what is drawn is no part of the invariant. -/
theorem Inv.fetch {s : State} (h : Inv s) : Inv (Machine.fetch s).2 := by
  unfold Machine.fetch
  split <;>
    exact ⟨h.legal, h.accBits, h.accClear, h.frameLen, h.frameTrunc, h.bufWf, h.bufInside, h.peer, h.outputs⟩

/-- The words of a payload are `PEV` words (R61). -/
theorem txWords_lt {c : Config} (hc : cfgLegal c = true) {bytes : List Byte} {w : Nat} (hw : w ∈ txWords c bytes) :
    w < 2 ^ (c.durW + 1) := by
  obtain ⟨e, he, rfl⟩ := List.mem_map.mp hw
  exact pevWord_lt c e (duration_lt_of_mem_encodeBytes hc he)

theorem outputOk_logOut (c : Config) (d : Direction) (o : LogOutcome) (bytes : List Byte) :
    outputOk c (.logOut ⟨d, o, bytes.length, preview c bytes⟩) = true :=
  decide_eq_true (preview_length c bytes)

theorem netOutputs_ok {c : Config} (hc : cfgLegal c = true) (m : NetMessage) :
    ∀ o ∈ netOutputs c m, outputOk c o = true := by
  unfold netOutputs
  split_ifs
  · simp [outputOk_logOut]
  · have hwords : outputOk c (.linkTx (txWords c m.payload)) = true := by
      simpa [outputOk] using fun w => txWords_lt hc (w := w)
    simp [outputOk_logOut, hwords]

theorem length_le_of_isFrameRecord {c : Config} {fr : FrameRecord} (h : isFrameRecord c fr = true) :
    fr.bytes.length ≤ c.frameMax := by
  simp only [isFrameRecord, Bool.and_eq_true, decide_eq_true_eq] at h
  exact h.1.1

theorem outputOk_netOut {c : Config} {addr : Nat} {bytes : List Byte} (hfit : fitsPeer c addr = true)
    (hpos : 1 ≤ bytes.length) (hmax : bytes.length ≤ c.frameMax) : outputOk c (.netOut addr bytes) = true := by
  simp [outputOk, hfit, hpos, hmax]

/-- A frame record's outputs have their formats: its bytes are between one and `FRAME_MAX` (R71, R72). -/
theorem frameOutputs_ok {fr : FrameRecord} {s : State} (hrec : isFrameRecord s.cfg fr = true)
    (hpeer : fitsPeer s.cfg s.peerAddr = true) : ∀ o ∈ frameOutputs fr s, outputOk s.cfg o = true := by
  unfold frameOutputs
  split
  · simp
  · next hempty =>
    split
    · simp [outputOk_logOut]
    · simp [outputOk_logOut, outputOk_netOut hpeer (Nat.pos_of_ne_zero hempty) (length_le_of_isFrameRecord hrec)]

theorem Inv.netDispatch {s : State} (h : Inv s) {m : NetMessage} (hfit : fitsPeer s.cfg m.sender = true) :
    Inv (Machine.netDispatch m s) := by
  refine h.of_bridgeKept (netDispatch_kept m s) ?_ (netDispatch_out m s) (netOutputs_ok h.legal m)
  obtain hkept | hsender := netDispatch_peer_cases m s
  · rw [hkept.1]
    exact h.peer
  · rw [hsender.2.1]
    exact hfit

theorem Inv.frameDispatch {s : State} (h : Inv s) {fr : FrameRecord} (hrec : isFrameRecord s.cfg fr = true) :
    Inv (Machine.frameDispatch fr s) := by
  refine h.of_bridgeKept (frameDispatch_kept fr s) ?_ (frameDispatch_out fr s) (frameOutputs_ok hrec h.peer)
  rw [(frameDispatch_peer fr s).1]
  exact h.peer

theorem Inv.netStep {s t : State} (h : Inv s) (hstep : Machine.netStep s = .next t) : Inv t := by
  obtain ⟨-, rfl⟩ | ⟨m, rest, -, hfit, rfl⟩ := netStep_cases hstep
  · exact h
  · exact (h.withNetIn rest).netDispatch hfit

theorem Inv.linkStep {s t : State} (h : Inv s) (hstep : Machine.linkStep s = .next t) : Inv t := by
  obtain ⟨-, rfl⟩ | ⟨words, rest, evs, -, -, rfl⟩ := linkStep_cases hstep
  · exact h
  · have hd := decoderStep_linkRxState evs (Machine.withLinkRx rest s)
    exact ((h.withLinkRx rest).of_decoderStep hd).frameDispatch
      (by rw [hd.outside.cfg]; exact linkRxRecord_isFrameRecord evs s)

theorem Inv.exec {i : Instr} {s t : State} (h : Inv s) (hi : Machine.exec i s = .next t) : Inv t := by
  cases runs_of_exec hi with
  | reset => exact h.resetCore
  | iteration hpoll =>
    exact pollIteration_rel (R := fun s t => Inv s → Inv t) (fun hf hg => hg ∘ hf) (fun hn hs => hs.netStep hn)
      (fun hl hs => hs.linkStep hl) hpoll h
  | network hm => exact h.netDispatch ((fitsPeer_iff _ _).mpr (decodeNetMessage_eq_ok hm).1)
  | encoder _ r => exact h.withResult r
  | decoder _ hd => exact h.of_decoderStep hd
  | frame hfr => exact h.frameDispatch (decodeFrame_eq_ok hfr).1

/-- Settles O58: fetching writes no field the invariant speaks of, and every operation keeps it. -/
theorem everyStepKeepsTheInvariant : Obligations.EveryStepKeepsTheInvariant := by
  intro s t h hstep
  obtain ⟨i, -, hi⟩ := exists_exec_of_step hstep
  exact h.fetch.exec hi

/-- Settles O57: the reference configuration is legal, the registers are 0 and nothing was emitted. -/
theorem invariantHoldsAtReset : Obligations.InvariantHoldsAtReset where
  legal := by decide
  accBits := Nat.zero_le 7
  accClear := fun _ _ => BitVec.getLsbD_zero
  frameLen := Nat.zero_le _
  frameTrunc := nofun
  bufWf := Memory.reset_wf
  bufInside := rfl
  peer := by decide
  outputs := nofun

/-! ### The decoder between iterations -/

theorem netStep_atRest {s t : State} (h : netStep s = .next t) (hrest : DecoderAtRest s) : DecoderAtRest t := by
  obtain ⟨hphase, hbits, hvalue, hlen, htrunc⟩ := hrest
  have hk := netStep_kept h
  exact ⟨hk.phase.trans hphase, hk.accBits.trans hbits, hk.accValue.trans hvalue, hk.frameLen.trans hlen,
    hk.frameTrunc.trans htrunc⟩

theorem linkStep_atRest {s t : State} (h : linkStep s = .next t) (hrest : DecoderAtRest s) : DecoderAtRest t := by
  obtain ⟨-, rfl⟩ | ⟨words, rest, evs, hl, hd, -⟩ := linkStep_cases h
  · exact hrest
  · exact (linkStep_batchTaken hl hd h).rest

/-- At transaction level a step selects reset or a tick (R158). -/
theorem decode_fetch_of_transactionLevel {s : State} {i : Instr} (h : TransactionLevel s)
    (hd : decode s.cfg (fetch s).1 = .ok i) : i = .reset ∨ ∃ ord, i = .poll ord := by
  cases hs : s.stimulus with
  | nil =>
    rw [fetch_of_nil hs] at hd
    exact .inr ⟨_, (Except.ok.inj hd).symm⟩
  | cons st rest =>
    rw [fetch_of_cons hs] at hd
    obtain hsel | ⟨ord, hsel⟩ := h st (by rw [hs]; exact List.mem_cons_self)
    · rw [hsel] at hd
      exact .inl (Except.ok.inj hd).symm
    · rw [hsel] at hd
      exact .inr ⟨ord, (Except.ok.inj hd).symm⟩

theorem TransactionLevel.fetch {s : State} (h : TransactionLevel s) : TransactionLevel (Machine.fetch s).2 := by
  cases hs : s.stimulus with
  | nil =>
    rw [fetch_of_nil hs]
    exact h
  | cons st rest =>
    rw [fetch_of_cons hs]
    exact fun x hx => h x (by rw [hs]; exact List.mem_cons_of_mem st hx)

theorem DecoderAtRest.fetch {s : State} (h : DecoderAtRest s) : DecoderAtRest (Machine.fetch s).2 := by
  unfold Machine.fetch
  split <;> exact h

/-- Settles O59: reset and an iteration take no stimulus of their own, and both leave a decoder at rest at rest. -/
theorem decoderRestsBetweenIterations : Obligations.DecoderRestsBetweenIterations := by
  intro s t hlevel hrest hstep
  obtain ⟨i, hd, hi⟩ := exists_exec_of_step hstep
  obtain rfl | ⟨ord, rfl⟩ := decode_fetch_of_transactionLevel hlevel hd
  · obtain ⟨-, -, -, heff⟩ := (exec_next_iff _ _ t).mp hi
    cases heff
    exact ⟨hlevel.fetch, rfl, rfl, rfl, rfl, rfl⟩
  · obtain ⟨-, -, hpoll⟩ := (exec_poll_next_iff ord _ t).mp hi
    refine ⟨?_, pollIteration_rel (R := fun s t => DecoderAtRest s → DecoderAtRest t) (fun hf hg => hg ∘ hf)
      netStep_atRest linkStep_atRest hpoll hrest.fetch⟩
    rw [TransactionLevel, (pollIteration_kept hpoll).stimulus]
    exact hlevel.fetch

end Sys2Proof.Machine
end

section
/-! PROOFS. Fixed values and corner cases: the state after reset (10_state.md section 2), the words of the opcode table,
the codes of a log record (30_encoding.md section 5), a POLL before RESET and an empty frame. -/

namespace Sys2Proof.Machine

/-- Settles O2: each value is the one `State.reset` and the reference configuration write out. -/
theorem stateAfterResetHoldsSpecValues : Obligations.StateAfterResetHoldsSpecValues :=
  ⟨rfl, rfl, rfl, rfl, rfl, rfl, rfl, rfl, rfl, rfl, rfl, rfl, rfl, rfl, rfl, rfl, by decide⟩

/-- Settles O4: the map selects POLL in every state, and the iteration itself asks for a reset core. -/
theorem pollBeforeResetIsRefused : Obligations.PollBeforeResetIsRefused := by
  intro ord s hc hb
  rw [exec_poll s ord hc, hb]
  rfl

/-- Settles O7: each word evaluates under the reference widths. -/
theorem tableWordsDecodeToTheirOperations : Obligations.TableWordsDecodeToTheirOperations := by
  unfold Obligations.TableWordsDecodeToTheirOperations
  decide

/-- Settles O31: a record without bytes that is not truncated is the one the skip takes. -/
theorem emptyFrameIsSkipped : Obligations.EmptyFrameIsSkipped := by
  intro s fr hc hempty hres htrunc
  exact exec_frameSkip s fr hc ((wfFrame_iff _ _ _).mpr
    ⟨by simp [isFrameRecord, hempty, hres, htrunc], by simp [hempty]⟩)

/-- Settles O38: the codes are the table's own rows. -/
theorem logRecordCodes : Obligations.LogRecordCodes :=
  ⟨rfl, rfl, rfl, rfl, rfl, rfl⟩

end Sys2Proof.Machine
end
